-- ==== Sys2Proof/Word.lean ====
section
/-! DEFINITION. The two widths of the machine (00_scope.md R8): the 16-bit `Word` of every register, memory cell,
address and instruction, whose `+` is addition modulo 65536, and the 8-bit `Byte` of a character (R12). -/

namespace Sys2Proof

/-- R8: "Every register, memory cell, address and instruction is a `Word`". -/
abbrev Word := BitVec 16

/-- R8: "A `Byte` is an unsigned integer in 0 to 255". -/
abbrev Byte := BitVec 8

end Sys2Proof
end

