-- ==== Sys2Proof/Syntax.lean ====
section
/-! DEFINITION. The instructions as syntax: one constructor for every instruction or form of spec/opcode_table.json.
Fields outside every format (30_encoding.md R85, "ignored") are not part of an instruction. -/

namespace Sys2Proof

/-- 10_state.md R21: the eight general-purpose registers, named by a 3-bit selector. -/
inductive Reg where
  | r0 | r1 | r2 | r3 | r4 | r5 | r6 | r7
deriving DecidableEq, Repr

/-- 30_encoding.md R87: the sixteen opcode symbols, in the order the document lists them. -/
inductive Opcode where
  | br | add | ld | st | jsr | and | ldr | str | rti | not | ldi | sti | jmp | res | lea | trap
deriving DecidableEq, Repr

/-- The instructions. Offsets and immediates are the raw fields of 30_encoding.md R82; the machine extends them. -/
inductive Instr where
  /-- BR (42_control.md R130): the three condition bits n, z, p and PCoffset9. -/
  | br (n z p : Bool) (off9 : BitVec 9)
  /-- ADD, register form (41_alu.md R120). -/
  | addReg (dr sr1 sr2 : Reg)
  /-- ADD, immediate form (41_alu.md R121). -/
  | addImm (dr sr1 : Reg) (imm5 : BitVec 5)
  /-- LD (43_load_store.md R140). -/
  | ld (dr : Reg) (off9 : BitVec 9)
  /-- ST (43_load_store.md R144). -/
  | st (sr : Reg) (off9 : BitVec 9)
  /-- JSRR (42_control.md R133). -/
  | jsrr (baseR : Reg)
  /-- JSR (42_control.md R132). -/
  | jsr (off11 : BitVec 11)
  /-- AND, register form (41_alu.md R122). -/
  | andReg (dr sr1 sr2 : Reg)
  /-- AND, immediate form (41_alu.md R123). -/
  | andImm (dr sr1 : Reg) (imm5 : BitVec 5)
  /-- LDR (43_load_store.md R142). -/
  | ldr (dr baseR : Reg) (off6 : BitVec 6)
  /-- STR (43_load_store.md R146). -/
  | str (sr baseR : Reg) (off6 : BitVec 6)
  /-- RTI, reserved (45_reserved.md R170). -/
  | rti
  /-- NOT (41_alu.md R124). -/
  | not (dr sr1 : Reg)
  /-- LDI (43_load_store.md R141). -/
  | ldi (dr : Reg) (off9 : BitVec 9)
  /-- STI (43_load_store.md R145). -/
  | sti (sr : Reg) (off9 : BitVec 9)
  /-- JMP; RET is JMP with BaseR = 7 (42_control.md R131). -/
  | jmp (baseR : Reg)
  /-- RES, reserved (45_reserved.md R171). -/
  | res
  /-- LEA (43_load_store.md R143). -/
  | lea (dr : Reg) (off9 : BitVec 9)
  /-- TRAP x20 GETC (44_trap.md R156). -/
  | trapGetc
  /-- TRAP x21 OUT (44_trap.md R157). -/
  | trapOut
  /-- TRAP x22 PUTS (44_trap.md R158). -/
  | trapPuts
  /-- TRAP x23 IN (44_trap.md R159). -/
  | trapIn
  /-- TRAP x24 PUTSP (44_trap.md R160). -/
  | trapPutsp
  /-- TRAP x25 HALT (44_trap.md R161). -/
  | trapHalt
  /-- TRAP with a code that names no service (44_trap.md R162): the six rows TRAP__unassigned_code of the table (log 30). -/
  | trapUnassigned (code : Byte)
deriving DecidableEq, Repr

end Sys2Proof
end

