-- ==== Sys2Proof/WellFormed.lean ====
section
/-! DEFINITION. Which terms of `Instr` stand for an instruction word. Register selectors, condition bits, immediates
and offsets take every value of their types; only the code of an unassigned TRAP is restricted (44_trap.md R162). -/

namespace Sys2Proof

/-- 44_trap.md R155: the six codes 0x20 to 0x25 name a service. -/
def trapAssigned (code : Byte) : Bool := 0x20 ≤ code.toNat && code.toNat ≤ 0x25

/-- A term is well formed when some word decodes to it: "codes 0x00 to 0x1F and 0x26 to 0xFF" for R162's form. -/
def Instr.wf : Instr → Bool
  | .br _ _ _ _ => true
  | .addReg _ _ _ => true
  | .addImm _ _ _ => true
  | .ld _ _ => true
  | .st _ _ => true
  | .jsrr _ => true
  | .jsr _ => true
  | .andReg _ _ _ => true
  | .andImm _ _ _ => true
  | .ldr _ _ _ => true
  | .str _ _ _ => true
  | .rti => true
  | .not _ _ => true
  | .ldi _ _ => true
  | .sti _ _ => true
  | .jmp _ => true
  | .res => true
  | .lea _ _ => true
  | .trapGetc => true
  | .trapOut => true
  | .trapPuts => true
  | .trapIn => true
  | .trapPutsp => true
  | .trapHalt => true
  | .trapUnassigned code => !trapAssigned code

end Sys2Proof
end

