-- ==== Sys2Proof/Decode.lean ====
section
/-! DEFINITION. From a word to an instruction (30_encoding.md R80 to R88) and back. Decoding is total on all 65,536
words (R86), a "pure function of a 16-bit word" (R80). Opcode numbers and field positions are the spec's decisions
D1 and D2, PRESUMED (log 6, log 7). -/

namespace Sys2Proof

/-! ### Fields (30_encoding.md R81, R82) -/

/-- R7: `w[lo+len-1 : lo]`, the field of `len` bits whose lowest is bit `lo`. -/
def field (w : Word) (lo len : Nat) : BitVec len := w.extractLsb' lo len

/-- R81: "opcode (bits 15–12)". -/
def opcodeField (w : Word) : BitVec 4 := field w 12 4

/-- R82, R87: the opcode symbol a 4-bit value selects: its place in the document's list (decision D1). -/
def Opcode.ofBits (b : BitVec 4) : Opcode :=
  match b.toNat with
  | 0 => .br
  | 1 => .add
  | 2 => .ld
  | 3 => .st
  | 4 => .jsr
  | 5 => .and
  | 6 => .ldr
  | 7 => .str
  | 8 => .rti
  | 9 => .not
  | 10 => .ldi
  | 11 => .sti
  | 12 => .jmp
  | 13 => .res
  | 14 => .lea
  | _ => .trap

/-- R21: "names one of them by its number, 0 to 7". -/
def Reg.ofBits (b : BitVec 3) : Reg :=
  match b.toNat with
  | 0 => .r0
  | 1 => .r1
  | 2 => .r2
  | 3 => .r3
  | 4 => .r4
  | 5 => .r5
  | 6 => .r6
  | _ => .r7

/-- R82 DR, and SR of the stores: ir[11:9]. -/
def regA (w : Word) : Reg := Reg.ofBits (field w 9 3)

/-- R82 SR1 and BaseR: ir[8:6]. -/
def regB (w : Word) : Reg := Reg.ofBits (field w 6 3)

/-- R82 SR2: ir[2:0]. -/
def regC (w : Word) : Reg := Reg.ofBits (field w 0 3)

/-! ### The decoder (40_loop.md R111, 30_encoding.md R86, R87) -/

/-- 44_trap.md R155: the dispatch on ir[7:0]. -/
def decodeTrap (code : Byte) : Instr :=
  match code.toNat with
  | 0x20 => .trapGetc
  | 0x21 => .trapOut
  | 0x22 => .trapPuts
  | 0x23 => .trapIn
  | 0x24 => .trapPutsp
  | 0x25 => .trapHalt
  | _ => .trapUnassigned code

/-- The instruction a word stands for: by ir[15:12], "then for opcodes 0001 and 0101 by ir[5], for opcode 0100 by
ir[11], and for opcode 1111 by ir[7:0]. No other bit takes part" (R86). -/
def decode (w : Word) : Instr :=
  match Opcode.ofBits (opcodeField w) with
  | .br => .br (w.getLsbD 11) (w.getLsbD 10) (w.getLsbD 9) (field w 0 9)
  | .add =>
    if w.getLsbD 5 then .addImm (regA w) (regB w) (field w 0 5) else .addReg (regA w) (regB w) (regC w)
  | .ld => .ld (regA w) (field w 0 9)
  | .st => .st (regA w) (field w 0 9)
  | .jsr => if w.getLsbD 11 then .jsr (field w 0 11) else .jsrr (regB w)
  | .and =>
    if w.getLsbD 5 then .andImm (regA w) (regB w) (field w 0 5) else .andReg (regA w) (regB w) (regC w)
  | .ldr => .ldr (regA w) (regB w) (field w 0 6)
  | .str => .str (regA w) (regB w) (field w 0 6)
  | .rti => .rti
  | .not => .not (regA w) (regB w)
  | .ldi => .ldi (regA w) (field w 0 9)
  | .sti => .sti (regA w) (field w 0 9)
  | .jmp => .jmp (regB w)
  | .res => .res
  | .lea => .lea (regA w) (field w 0 9)
  | .trap => decodeTrap (field w 0 8)

/-- The decoder on a word numbered as spec/opcode_table.json numbers it: every row has 16 bits, one `Word` (R80). -/
def decodeTableWord (nbits w : Nat) : Option Instr :=
  if nbits ≤ 16 then some (decode (BitVec.ofNat 16 (w % 2 ^ nbits))) else none

/-! ### The encoder (30_encoding.md R83, R91) -/

/-- R21, R82: a register's 3-bit selector. -/
def Reg.toBits : Reg → BitVec 3
  | .r0 => 0
  | .r1 => 1
  | .r2 => 2
  | .r3 => 3
  | .r4 => 4
  | .r5 => 5
  | .r6 => 6
  | .r7 => 7

/-- R87: an opcode's 4-bit value. -/
def Opcode.toBits : Opcode → BitVec 4
  | .br => 0b0000
  | .add => 0b0001
  | .ld => 0b0010
  | .st => 0b0011
  | .jsr => 0b0100
  | .and => 0b0101
  | .ldr => 0b0110
  | .str => 0b0111
  | .rti => 0b1000
  | .not => 0b1001
  | .ldi => 0b1010
  | .sti => 0b1011
  | .jmp => 0b1100
  | .res => 0b1101
  | .lea => 0b1110
  | .trap => 0b1111

/-- R83 format TR with the ignored bits ir[11:8] as R91 writes them, zero. -/
def encodeTrap (code : Byte) : Word := Opcode.toBits .trap ++ 0#4 ++ code

/-- The word of an instruction, format by format (R83); the ignored bits are those R91's notation writes
(ir[5:0] of NOT all ones, every other zero), which the decoder does not look at (decision D4, log 9). -/
def encode : Instr → Word
  | .br n z p off9 => Opcode.toBits .br ++ BitVec.ofBool n ++ BitVec.ofBool z ++ BitVec.ofBool p ++ off9
  | .addReg dr sr1 sr2 => Opcode.toBits .add ++ dr.toBits ++ sr1.toBits ++ 0b000#3 ++ sr2.toBits
  | .addImm dr sr1 imm5 => Opcode.toBits .add ++ dr.toBits ++ sr1.toBits ++ 1#1 ++ imm5
  | .ld dr off9 => Opcode.toBits .ld ++ dr.toBits ++ off9
  | .st sr off9 => Opcode.toBits .st ++ sr.toBits ++ off9
  | .jsrr baseR => Opcode.toBits .jsr ++ 0b000#3 ++ baseR.toBits ++ 0b000000#6
  | .jsr off11 => Opcode.toBits .jsr ++ 1#1 ++ off11
  | .andReg dr sr1 sr2 => Opcode.toBits .and ++ dr.toBits ++ sr1.toBits ++ 0b000#3 ++ sr2.toBits
  | .andImm dr sr1 imm5 => Opcode.toBits .and ++ dr.toBits ++ sr1.toBits ++ 1#1 ++ imm5
  | .ldr dr baseR off6 => Opcode.toBits .ldr ++ dr.toBits ++ baseR.toBits ++ off6
  | .str sr baseR off6 => Opcode.toBits .str ++ sr.toBits ++ baseR.toBits ++ off6
  | .rti => Opcode.toBits .rti ++ 0#12
  | .not dr sr1 => Opcode.toBits .not ++ dr.toBits ++ sr1.toBits ++ 0b111111#6
  | .ldi dr off9 => Opcode.toBits .ldi ++ dr.toBits ++ off9
  | .sti sr off9 => Opcode.toBits .sti ++ sr.toBits ++ off9
  | .jmp baseR => Opcode.toBits .jmp ++ 0b000#3 ++ baseR.toBits ++ 0b000000#6
  | .res => Opcode.toBits .res ++ 0#12
  | .lea dr off9 => Opcode.toBits .lea ++ dr.toBits ++ off9
  | .trapGetc => encodeTrap 0x20
  | .trapOut => encodeTrap 0x21
  | .trapPuts => encodeTrap 0x22
  | .trapIn => encodeTrap 0x23
  | .trapPutsp => encodeTrap 0x24
  | .trapHalt => encodeTrap 0x25
  | .trapUnassigned code => encodeTrap code

/-! ### What the encoding tables say beside the decoder -/

/-- R83, R85: the bits of an instruction's format that the machine ignores, as a mask (`x` in R83's tables). -/
def ignoredMask : Instr → Word
  | .br _ _ _ _ => 0x0000
  | .addReg _ _ _ => 0x0018
  | .addImm _ _ _ => 0x0000
  | .ld _ _ => 0x0000
  | .st _ _ => 0x0000
  | .jsrr _ => 0x063F
  | .jsr _ => 0x0000
  | .andReg _ _ _ => 0x0018
  | .andImm _ _ _ => 0x0000
  | .ldr _ _ _ => 0x0000
  | .str _ _ _ => 0x0000
  | .rti => 0x0FFF
  | .not _ _ => 0x003F
  | .ldi _ _ => 0x0000
  | .sti _ _ => 0x0000
  | .jmp _ => 0x0E3F
  | .res => 0x0FFF
  | .lea _ _ => 0x0000
  | .trapGetc => 0x0F00
  | .trapOut => 0x0F00
  | .trapPuts => 0x0F00
  | .trapIn => 0x0F00
  | .trapPutsp => 0x0F00
  | .trapHalt => 0x0F00
  | .trapUnassigned _ => 0x0F00

/-- Each instruction's mnemonic in spec/opcode_table.json, letter for letter. -/
def Instr.mnemonic : Instr → String
  | .br _ _ _ _ => "BR"
  | .addReg _ _ _ => "ADD"
  | .addImm _ _ _ => "ADD"
  | .ld _ _ => "LD"
  | .st _ _ => "ST"
  | .jsrr _ => "JSRR"
  | .jsr _ => "JSR"
  | .andReg _ _ _ => "AND"
  | .andImm _ _ _ => "AND"
  | .ldr _ _ _ => "LDR"
  | .str _ _ _ => "STR"
  | .rti => "RTI"
  | .not _ _ => "NOT"
  | .ldi _ _ => "LDI"
  | .sti _ _ => "STI"
  | .jmp _ => "JMP"
  | .res => "RES"
  | .lea _ _ => "LEA"
  | .trapGetc => "TRAP_GETC"
  | .trapOut => "TRAP_OUT"
  | .trapPuts => "TRAP_PUTS"
  | .trapIn => "TRAP_IN"
  | .trapPutsp => "TRAP_PUTSP"
  | .trapHalt => "TRAP_HALT"
  | .trapUnassigned _ => "TRAP__unassigned_code"

/-- R86: the 30 rows (mask, match, mnemonic) of spec/opcode_table.json, "tests `(ir AND mask) = match` row by row";
the opcode rows first. -/
def opcodeRows : List (Word × Word × String) :=
  [(0xF000, 0x0000, "BR"), (0xF020, 0x1000, "ADD"), (0xF020, 0x1020, "ADD"), (0xF000, 0x2000, "LD"),
   (0xF000, 0x3000, "ST"), (0xF800, 0x4000, "JSRR"), (0xF800, 0x4800, "JSR"), (0xF020, 0x5000, "AND"),
   (0xF020, 0x5020, "AND"), (0xF000, 0x6000, "LDR"), (0xF000, 0x7000, "STR"), (0xF000, 0x8000, "RTI"),
   (0xF000, 0x9000, "NOT"), (0xF000, 0xA000, "LDI"), (0xF000, 0xB000, "STI"), (0xF000, 0xC000, "JMP"),
   (0xF000, 0xD000, "RES"), (0xF000, 0xE000, "LEA")]

/-- R86: the TRAP rows of the table; "TRAP with an unassigned code takes six rows". -/
def trapRows : List (Word × Word × String) :=
  [(0xF0FF, 0xF020, "TRAP_GETC"), (0xF0FF, 0xF021, "TRAP_OUT"), (0xF0FF, 0xF022, "TRAP_PUTS"),
   (0xF0FF, 0xF023, "TRAP_IN"), (0xF0FF, 0xF024, "TRAP_PUTSP"), (0xF0FF, 0xF025, "TRAP_HALT"),
   (0xF0E0, 0xF000, "TRAP__unassigned_code"), (0xF0FE, 0xF026, "TRAP__unassigned_code"),
   (0xF0F8, 0xF028, "TRAP__unassigned_code"), (0xF0F0, 0xF030, "TRAP__unassigned_code"),
   (0xF0C0, 0xF040, "TRAP__unassigned_code"), (0xF080, 0xF080, "TRAP__unassigned_code")]

/-- The whole table. -/
def opcodeTable : List (Word × Word × String) := opcodeRows ++ trapRows

end Sys2Proof
end

