-- ==== Sys2Proof/Config.lean ====
section
/-! DEFINITION. The fixed parameters of 00_scope.md R5 and the defaults R6 gives the two texts a run
writes of its own. -/

namespace Sys2Proof.Config

/-- R5 PC_START: the PC value before the first fetch (10_state.md R36). -/
def pcStart : Word := 0x3000

/-- R5 KBSR: the address of the keyboard status register (20_memory.md R54). -/
def kbsr : Word := 0xFE00

/-- R5 KBDR: the address of the keyboard data register (20_memory.md R55). -/
def kbdr : Word := 0xFE02

/-- R5: "65,536 cells, addresses 0 to 65535". -/
def memCells : Nat := 65536

/-- R6: the default of IN_PROMPT, "the ASCII bytes of `Enter a character: `". DESIGN CHOICE (log 18): the spec's own
default, from general knowledge; a run may have any other prompt. -/
def inPromptDefault : List Byte :=
  [0x45, 0x6E, 0x74, 0x65, 0x72, 0x20, 0x61, 0x20] ++ [0x63, 0x68, 0x61, 0x72, 0x61, 0x63, 0x74, 0x65, 0x72, 0x3A, 0x20]

/-- R6: the default of HALT_MSG, "the ASCII bytes of `HALT` followed by a line feed 0x0A". DESIGN CHOICE (log 19): the
spec's own default, from general knowledge; a run may have any other text. -/
def haltMsgDefault : List Byte := [0x48, 0x41, 0x4C, 0x54, 0x0A]

end Sys2Proof.Config
end

