-- ==== Sys2Proof/Machine/State.lean ====
section
/-! DEFINITION. All the state the spec gives the machine (10_state.md R20 to R36) as plain data, the reasons a step
can stop, and the state right after reset. -/

namespace Sys2Proof.Machine

/-- 10_state.md R27: COND, "holding exactly one of {POSITIVE, ZERO, NEGATIVE}". -/
inductive Cond where
  | n | z | p
deriving DecidableEq, Repr

/-- 60_exceptions.md R180: "exactly two synchronous exceptions while running". -/
inductive ExceptionKind where
  | invalidOpcode
  | invalidTrapCode
deriving DecidableEq, Repr

/-- 10_state.md R31: the four values of RUN. The FAULTED values are the spec's decision D15 (log 20). -/
inductive RunState where
  | running
  | halted
  | faulted (kind : ExceptionKind)
deriving DecidableEq, Repr

/-- 10_state.md R21: the eight general-purpose registers; one set, no banks, none hardwired. -/
structure RegFile where
  r0 : Word
  r1 : Word
  r2 : Word
  r3 : Word
  r4 : Word
  r5 : Word
  r6 : Word
  r7 : Word
deriving DecidableEq, Repr

/-- 10_state.md R33: the memory, as the list of the cells that differ from what an unlisted address reads as. The
addressable unit is the 16-bit word and "there is no way to address a byte" (20_memory.md R50), so an entry is an
(address, word) pair. DESIGN CHOICE (log 1), safe. -/
abbrev Memory := List (Nat × Word)

/-- 00_scope.md R6: the two open parameters an instruction writes: IN_PROMPT, "what the IN service writes before it
reads", and HALT_MSG, "the 'halt indication' the HALT service writes"; each any finite byte string. -/
structure RunTexts where
  inPrompt : List Byte
  haltMsg : List Byte
deriving DecidableEq, Repr

/-- 00_scope.md R6: the defaults of both (log 18, log 19). -/
def RunTexts.default : RunTexts where
  inPrompt := Config.inPromptDefault
  haltMsg := Config.haltMsgDefault

/-- 10_state.md R20: "The complete state of the core", with the environment's queue and output of R34. KBSR and KBDR
are the memory cells 0xFE00 and 0xFE02 (20_memory.md R54, R55). -/
structure State where
  /-- R0 to R7 (R21). -/
  regs : RegFile
  /-- PC (R25). -/
  pc : Word
  /-- COND (R27). -/
  cond : Cond
  /-- RUN (R31). -/
  run : RunState
  /-- M (R33). -/
  mem : Memory
  /-- IN_Q, oldest first (00_scope.md R12). -/
  inQ : List Byte
  /-- OUT_S, oldest first (00_scope.md R12). -/
  outS : List Byte
  /-- The model's own record of OutFlush (00_scope.md R12 item d): how many bytes of OUT_S were there at the latest
  flush. DESIGN CHOICE (log 25), safe: the core never reads it. -/
  flushed : Nat
  /-- IN_PROMPT and HALT_MSG of this run: "parameters of a run, not state of the machine" (R35), carried beside the state
  as the arguments R6 asks for. `State.boot` sets them and no move changes them. DESIGN CHOICE (log 32), safe. -/
  texts : RunTexts
deriving DecidableEq, Repr

/-- Why a step gives no next state. The machine's two exceptions are not among them: they are next states with RUN
at FAULTED (40_loop.md R113). -/
inductive Fault where
  /-- Answered by `step` when RUN = HALTED: "A state with RUN ≠ RUNNING has no step" (40_loop.md R113). Safe. -/
  | halted
  /-- Answered by `step` when RUN = FAULTED(kind): the same rule (60_exceptions.md R188). Safe. -/
  | faulted (kind : ExceptionKind)
  /-- Answered by GETC and IN while IN_Q is empty: "No step now", the machine is stuck until the environment
  supplies a character (40_loop.md R113 d). Safe, but for claims about OUT_S while it is stuck in IN (log 22). -/
  | waitingForInput
  /-- Answered by the string walk of PUTS and PUTSP when its fuel runs out: the service "does not complete" (40_loop.md
  R113; 93_implementation_defined.md U8). The fuel they are given never runs out (log 24). Safe. -/
  | endlessString
deriving DecidableEq, Repr

/-- Why an instruction has no meaning. -/
inductive Refusal where
  /-- Answered by `exec` for an instruction not modelled yet; no arm of this model answers it. Safe. -/
  | notModelled (mnemonic : String)
deriving DecidableEq, Repr

/-- 10_state.md R36: before the first fetch. PC and RUN are the document's; the rest are the defaults of the open
parameters REG_INIT, COND_INIT, MEM_INIT, IN_PROMPT and HALT_MSG and an empty input, DESIGN CHOICE (logs 2 to 5, 18,
19), unsafe. `State.boot` in
Machine/Loader.lean takes them as arguments. No image is loaded (log 28). -/
def State.reset : State where
  regs := { r0 := 0, r1 := 0, r2 := 0, r3 := 0, r4 := 0, r5 := 0, r6 := 0, r7 := 0 }
  pc := Config.pcStart
  cond := .z
  run := .running
  mem := []
  inQ := []
  outS := []
  flushed := 0
  texts := RunTexts.default

end Sys2Proof.Machine
end

