-- ==== Sys2Proof/Machine/Flags.lean ====
section
/-! DEFINITION. COND: the flag function (10_state.md R23), the numeric encoding (R28) and the branch test
(42_control.md R130). -/

namespace Sys2Proof.Machine

/-- R23: "bit 15 set ⇒ NEGATIVE; value zero ⇒ ZERO; else POSITIVE". -/
def flag (v : Word) : Cond :=
  if v.getLsbD 15 then .n else if v = 0 then .z else .p

/-- R28: P = 001, Z = 010, N = 100 (decision D3, log 8); no program can see it. -/
def Cond.bits : Cond → BitVec 3
  | .n => 0b100
  | .z => 0b010
  | .p => 0b001

/-- 42_control.md R130: `(n = 1 and COND = N) or (z = 1 and COND = Z) or (p = 1 and COND = P)`. -/
def brTaken (n z p : Bool) : Cond → Bool
  | .n => n
  | .z => z
  | .p => p

end Sys2Proof.Machine
end

