-- ==== Sys2Proof/Machine/Operands.lean ====
section
/-! DEFINITION. How operand fields become words and effective addresses: extension (00_scope.md R9), the immediates
and offsets of 30_encoding.md R84, the addressing modes of 43_load_store.md R147, and a word's two bytes. -/

namespace Sys2Proof.Machine

/-- R9 `sext_n(x)`: "if x[n−1] = 1 then x OR (0xFFFF shifted left by n, kept to 16 bits) …; otherwise x unchanged". -/
def sext (n : Nat) (x : BitVec n) : Word :=
  if x.getLsbD (n - 1) then x.setWidth 16 ||| (0xFFFF#16 <<< n) else x.setWidth 16

/-- R9 `zext(b)`: "the Word with the same numeric value (bits 15 to 8 zero)". -/
def zext (b : Byte) : Word := b.setWidth 16

/-- R84 `imm`: the 5-bit immediate of ADD and AND. -/
def immediate (imm5 : BitVec 5) : Word := sext 5 imm5

/-- R147 a: the PC-relative address with a 9-bit offset, from the incremented PC; also BR's target (R130). -/
def pcRelative9 (pc : Word) (off9 : BitVec 9) : Word := pc + sext 9 off9

/-- R132: JSR's target, from the incremented PC. -/
def pcRelative11 (pc : Word) (off11 : BitVec 11) : Word := pc + sext 11 off11

/-- R147 c: base plus 6-bit offset. -/
def baseOffset6 (base : Word) (off6 : BitVec 6) : Word := base + sext 6 off6

/-- `w[7:0]`: the character of a word (R157, R158, R160). -/
def lowByte (w : Word) : Byte := w.extractLsb' 0 8

/-- `w[15:8]`: PUTSP's second character (R160), and the first byte of an image word (R212). -/
def highByte (w : Word) : Byte := w.extractLsb' 8 8

end Sys2Proof.Machine
end

