-- ==== Sys2Proof/Machine/Ops.lean ====
section
/-! DEFINITION. The named operations every meaning is written with: registers (10_state.md R22), raw memory cells, the
two memory primitives (20_memory.md R52, R53), the environment primitives (00_scope.md R12), the string walk
(44_trap.md R158, R160), taking an exception (60_exceptions.md R181, R182), and the fetch (40_loop.md R110). -/

namespace Sys2Proof.Machine

/-! ### General registers -/

/-- The content of one register. -/
def RegFile.get (f : RegFile) : Reg → Word
  | .r0 => f.r0
  | .r1 => f.r1
  | .r2 => f.r2
  | .r3 => f.r3
  | .r4 => f.r4
  | .r5 => f.r5
  | .r6 => f.r6
  | .r7 => f.r7

/-- The register file with one register replaced. -/
def RegFile.set (f : RegFile) (r : Reg) (v : Word) : RegFile :=
  match r with
  | .r0 => { f with r0 := v }
  | .r1 => { f with r1 := v }
  | .r2 => { f with r2 := v }
  | .r3 => { f with r3 := v }
  | .r4 => { f with r4 := v }
  | .r5 => { f with r5 := v }
  | .r6 => { f with r6 := v }
  | .r7 => { f with r7 := v }

/-- 00_scope.md R10: `R[i]`. -/
def State.readReg (s : State) (r : Reg) : Word := s.regs.get r

/-- 10_state.md R22: `R[i] <- v` stores v and sets COND from it, "one indivisible action". -/
def State.writeReg (s : State) (r : Reg) (v : Word) : State :=
  { s with regs := s.regs.set r v, cond := flag v }

/-- 10_state.md R26: `PC <- v` writes PC "and touches nothing else". -/
def State.writePc (s : State) (v : Word) : State := { s with pc := v }

/-! ### Memory as data -/

/-- What an address the list does not mention reads as: MEM_INIT's default (00_scope.md R6). DESIGN CHOICE (log 2),
unsafe for a claim about a cell that neither an image nor the program wrote. -/
def Memory.unlisted : Word := 0

/-- The content of the cell at an address. -/
def Memory.read : Memory → Nat → Word
  | [], _ => Memory.unlisted
  | (b, w) :: rest, a => if b = a then w else Memory.read rest a

/-- The list without the entry of an address. -/
def Memory.dropCell (m : Memory) (a : Nat) : Memory := m.filter (fun c => c.1 ≠ a)

/-- The list with an entry put in at its place in rising order. -/
def Memory.putCell (a : Nat) (v : Word) : Memory → Memory
  | [] => [(a, v)]
  | (b, w) :: rest => if a < b then (a, v) :: (b, w) :: rest else (b, w) :: Memory.putCell a v rest

/-- The memory after a cell is given a value: no entry where the value is what an unlisted address reads as. -/
def Memory.write (m : Memory) (a : Nat) (v : Word) : Memory :=
  if v = Memory.unlisted then m.dropCell a else Memory.putCell a v (m.dropCell a)

/-- The canonical form: addresses strictly rising, inside the address space, no entry equal to an unlisted read. -/
abbrev Memory.wf (m : Memory) : Prop :=
  m.Pairwise (fun c d => c.1 < d.1) ∧ ∀ c ∈ m, c.1 < Config.memCells ∧ c.2 ≠ Memory.unlisted

/-- 00_scope.md R10: `M[a]`, the raw cell, no side effect. -/
def State.cell (s : State) (a : Word) : Word := s.mem.read a.toNat

/-- `M[a] := v`, the raw cell. -/
def State.setCell (s : State) (a v : Word) : State := { s with mem := s.mem.write a.toNat v }

/-! ### The environment primitives (00_scope.md R12) -/

/-- R12 a: `poll_input_ready()` "is `IN_Q ≠ empty`". -/
def State.pollInputReady (s : State) : Bool := !s.inQ.isEmpty

/-- R12 b: `InTake()` removes the oldest pending character; none when none is pending (it would wait). -/
def State.inTake (s : State) : Option (Byte × State) :=
  match s.inQ with
  | [] => none
  | c :: rest => some (c, { s with inQ := rest })

/-- R12 c: `OutByte(b)` appends to the output sequence. -/
def State.outByte (s : State) (b : Byte) : State := { s with outS := s.outS ++ [b] }

/-- `OutByte` for each byte in order (R159, R161): all of them appended (Laws/State.lean, outBytes_eq_foldl). -/
def State.outBytes (s : State) (bs : List Byte) : State := { s with outS := s.outS ++ bs }

/-- R12 d: `OutFlush()` "marks that everything appended so far must be made visible" (log 25). -/
def State.outFlush (s : State) : State := { s with flushed := s.outS.length }

/-! ### The memory primitives -/

/-- 20_memory.md R52, the part before `return`: the poll of the keyboard. Bit 15 alone is set when a character was
pending (decision D9, log 14), and the character's code is zero-extended (decision D10, log 15). -/
def State.pollKeyboard (s : State) : State :=
  match s.inTake with
  | some (c, t) => (t.setCell Config.kbsr 0x8000).setCell Config.kbdr (zext c)
  | none => s.setCell Config.kbsr 0x0000

/-- 20_memory.md R52: `MemRead(a)`, the word and the state after its side effect, which only 0xFE00 has. -/
def State.memRead (s : State) (a : Word) : Word × State :=
  if a = Config.kbsr then (s.pollKeyboard.cell a, s.pollKeyboard) else (s.cell a, s)

/-- 20_memory.md R53: `MemWrite(a, v)`, "a plain store at every address with no side effect". -/
def State.memWrite (s : State) (a v : Word) : State := s.setCell a v

/-! ### The string walk of PUTS and PUTSP -/

/-- 44_trap.md R158: "each word's low byte". -/
def putsBytes (w : Word) : List Byte := [lowByte w]

/-- 44_trap.md R160: "low byte then high byte, skip a zero high byte". -/
def putspBytes (w : Word) : List Byte :=
  if highByte w = 0 then [lowByte w] else [lowByte w, highByte w]

/-- 44_trap.md R158, R160, the loop: read through `MemRead` at a, stop at a zero word, else write the word's bytes
and go on at a + 1. `none` when `fuel` reads did not meet a zero word. -/
def State.putString (bytes : Word → List Byte) : Nat → Word → State → Option State
  | 0, _, _ => none
  | fuel + 1, a, s =>
    let r := s.memRead a
    if r.1 = 0x0000 then some r.2
    else State.putString bytes fuel (a + 1) (r.2.outBytes (bytes r.1))

/-- Reads enough for any walk: once round the address space meets 0xFE00, whose read is zero unless a character is
pending, and takes one character away each time it is not (log 24). -/
def State.stringFuel (s : State) : Nat := Config.memCells * (s.inQ.length + 1)

/-- PUTS and PUTSP: the walk from R0, then the flush. -/
def State.putService (s : State) (bytes : Word → List Byte) : Host.Outcome State Fault Refusal :=
  match State.putString bytes s.stringFuel (s.readReg .r0) s with
  | some t => .next t.outFlush
  | none => .fault .endlessString

/-! ### Taking an exception -/

/-- 00_scope.md R13, 60_exceptions.md R181, R182: "RUN := FAULTED(kind) and nothing else". Nothing is saved and
control goes nowhere (R183, R188); there is no return from it (R189). -/
def State.raise (s : State) (kind : ExceptionKind) : State := { s with run := .faulted kind }

/-! ### The fetch -/

/-- 40_loop.md R110 phases 1 and 2: fetch through `MemRead`, then the increment modulo 65536, "before anything else
happens" (decisions D7, D8; log 12, log 13). -/
def State.fetch (s : State) : Word × State :=
  let r := s.memRead s.pc
  (r.1, r.2.writePc (r.2.pc + 1))

/-- A word stored where the next fetch reads it, by a raw store as the loader's (70_reset_and_hazards.md R213). -/
def State.placeAtPc (s : State) (w : Word) : State := s.setCell s.pc w

end Sys2Proof.Machine
end

