-- ==== Sys2Proof/Machine/Alu.lean ====
section
/-! DEFINITION. ADD, AND, NOT (41_alu.md R120 to R125). Sources are read before the destination is written. -/

namespace Sys2Proof.Machine

/-- R120: `R[DR] <- R[SR1] + R[SR2]`, modulo 65536. -/
def execAddReg (dr sr1 sr2 : Reg) (s : State) : Host.Outcome State Fault Refusal :=
  .next (s.writeReg dr (s.readReg sr1 + s.readReg sr2))

/-- R121: `R[DR] <- R[SR1] + sext_5(imm5)`. -/
def execAddImm (dr sr1 : Reg) (imm5 : BitVec 5) (s : State) : Host.Outcome State Fault Refusal :=
  .next (s.writeReg dr (s.readReg sr1 + immediate imm5))

/-- R122: `R[DR] <- R[SR1] AND R[SR2]`. -/
def execAndReg (dr sr1 sr2 : Reg) (s : State) : Host.Outcome State Fault Refusal :=
  .next (s.writeReg dr (s.readReg sr1 &&& s.readReg sr2))

/-- R123: `R[DR] <- R[SR1] AND sext_5(imm5)`. -/
def execAndImm (dr sr1 : Reg) (imm5 : BitVec 5) (s : State) : Host.Outcome State Fault Refusal :=
  .next (s.writeReg dr (s.readReg sr1 &&& immediate imm5))

/-- R124: `R[DR] <- NOT R[SR1]`. -/
def execNot (dr sr1 : Reg) (s : State) : Host.Outcome State Fault Refusal :=
  .next (s.writeReg dr (~~~ s.readReg sr1))

end Sys2Proof.Machine
end

