-- ==== Sys2Proof/Machine/Control.lean ====
section
/-! DEFINITION. BR, JMP, JSR, JSRR (42_control.md R130 to R134). `s.pc` is the incremented PC (40_loop.md R110). -/

namespace Sys2Proof.Machine

/-- R130: "if taken then PC <- PC + sext_9(ir[8:0])". -/
def execBr (n z p : Bool) (off9 : BitVec 9) (s : State) : Host.Outcome State Fault Refusal :=
  .next (if brTaken n z p s.cond then s.writePc (pcRelative9 s.pc off9) else s)

/-- R131: `PC <- R[BaseR]`. -/
def execJmp (baseR : Reg) (s : State) : Host.Outcome State Fault Refusal :=
  .next (s.writePc (s.readReg baseR))

/-- R132: `R[7] <- PC`, then `PC <- PC + sext_11(ir[10:0])`. -/
def execJsr (off11 : BitVec 11) (s : State) : Host.Outcome State Fault Refusal :=
  .next ((s.writeReg .r7 s.pc).writePc (pcRelative11 s.pc off11))

/-- R133: `R[7] <- PC` first, then `PC <- R[BaseR]`, "read after R7 has been written" (decision D6, log 11). -/
def execJsrr (baseR : Reg) (s : State) : Host.Outcome State Fault Refusal :=
  let linked := s.writeReg .r7 s.pc
  .next (linked.writePc (linked.readReg baseR))

end Sys2Proof.Machine
end

