-- ==== Sys2Proof/Machine/LoadStore.lean ====
section
/-! DEFINITION. LD, LDI, LDR, LEA, ST, STI, STR (43_load_store.md R140 to R147). `s.pc` is the incremented PC. -/

namespace Sys2Proof.Machine

/-- R140: `R[DR] <- MemRead(PC + sext_9)`. -/
def execLd (dr : Reg) (off9 : BitVec 9) (s : State) : Host.Outcome State Fault Refusal :=
  let data := s.memRead (pcRelative9 s.pc off9)
  .next (data.2.writeReg dr data.1)

/-- R141: "first read: the pointer", "second read: the data". -/
def execLdi (dr : Reg) (off9 : BitVec 9) (s : State) : Host.Outcome State Fault Refusal :=
  let pointer := s.memRead (pcRelative9 s.pc off9)
  let data := pointer.2.memRead pointer.1
  .next (data.2.writeReg dr data.1)

/-- R142: `R[DR] <- MemRead(R[BaseR] + sext_6)`. -/
def execLdr (dr baseR : Reg) (off6 : BitVec 6) (s : State) : Host.Outcome State Fault Refusal :=
  let data := s.memRead (baseOffset6 (s.readReg baseR) off6)
  .next (data.2.writeReg dr data.1)

/-- R143: `R[DR] <- PC + sext_9`; "no read is made". -/
def execLea (dr : Reg) (off9 : BitVec 9) (s : State) : Host.Outcome State Fault Refusal :=
  .next (s.writeReg dr (pcRelative9 s.pc off9))

/-- R144: `MemWrite(PC + sext_9, R[SR])`. -/
def execSt (sr : Reg) (off9 : BitVec 9) (s : State) : Host.Outcome State Fault Refusal :=
  .next (s.memWrite (pcRelative9 s.pc off9) (s.readReg sr))

/-- R145: the pointer "read through MemRead", then the write. -/
def execSti (sr : Reg) (off9 : BitVec 9) (s : State) : Host.Outcome State Fault Refusal :=
  let pointer := s.memRead (pcRelative9 s.pc off9)
  .next (pointer.2.memWrite pointer.1 (pointer.2.readReg sr))

/-- R146: `MemWrite(R[BaseR] + sext_6, R[SR])`. -/
def execStr (sr baseR : Reg) (off6 : BitVec 6) (s : State) : Host.Outcome State Fault Refusal :=
  .next (s.memWrite (baseOffset6 (s.readReg baseR) off6) (s.readReg sr))

end Sys2Proof.Machine
end

