-- ==== Sys2Proof/Machine/Reserved.lean ====
section
/-! DEFINITION. The reserved opcodes RTI and RES (45_reserved.md R170, R171): both raise InvalidOpcode, always. -/

namespace Sys2Proof.Machine

/-- R170: `raise InvalidOpcode`. -/
def execRti (s : State) : Host.Outcome State Fault Refusal := .next (s.raise .invalidOpcode)

/-- R171: `raise InvalidOpcode`. -/
def execRes (s : State) : Host.Outcome State Fault Refusal := .next (s.raise .invalidOpcode)

end Sys2Proof.Machine
end

