-- ==== Sys2Proof/Machine/Trap.lean ====
section
/-! DEFINITION. The six trap services and TRAP with an unassigned code (44_trap.md R155 to R163). A service is part
of the instruction: it saves nothing, writes no R7 (decision D5, log 10) and leaves PC at its incremented value. -/

namespace Sys2Proof.Machine

/-- R156 GETC: `R[0] <- zext(InTake())`, no echo, no flush; waits while no character is pending (log 22). -/
def execTrapGetc (s : State) : Host.Outcome State Fault Refusal :=
  match s.inTake with
  | some (c, t) => .next (t.writeReg .r0 (zext c))
  | none => .fault .waitingForInput

/-- R157 OUT: "the low byte of R0" (decision D11, log 16), then the flush. -/
def execTrapOut (s : State) : Host.Outcome State Fault Refusal :=
  .next (s.outByte (lowByte (s.readReg .r0))).outFlush

/-- R158 PUTS: one character a word, from the address in R0. -/
def execTrapPuts (s : State) : Host.Outcome State Fault Refusal := s.putService putsBytes

/-- R159 IN: the prompt, one character into R0, the flush; no echo (decision D13, log 18); waits as GETC does. -/
def execTrapIn (s : State) : Host.Outcome State Fault Refusal :=
  match (s.outBytes s.texts.inPrompt).inTake with
  | some (c, t) => .next (t.writeReg .r0 (zext c)).outFlush
  | none => .fault .waitingForInput

/-- R160 PUTSP: two characters a word, from the address in R0. -/
def execTrapPutsp (s : State) : Host.Outcome State Fault Refusal := s.putService putspBytes

/-- R161 HALT: the halt indication, the flush, `RUN := HALTED`. -/
def execTrapHalt (s : State) : Host.Outcome State Fault Refusal :=
  .next { (s.outBytes s.texts.haltMsg).outFlush with run := .halted }

/-- R162: `raise InvalidTrapCode`, whatever the code. -/
def execTrapUnassigned (_code : Byte) (s : State) : Host.Outcome State Fault Refusal :=
  .next (s.raise .invalidTrapCode)

end Sys2Proof.Machine
end

