-- ==== Sys2Proof/Machine/Step.lean ====
section
/-! DEFINITION. One step of the machine (40_loop.md R110) and where its instruction is fetched from. -/

namespace Sys2Proof.Machine

/-- R110: fetch, increment, decode, execute, "enabled only while RUN = RUNNING"; "A state with RUN ≠ RUNNING has no
step" (R113; log 21). -/
def step (s : State) : Host.Outcome State Fault Refusal :=
  match s.run with
  | .running => exec (decode s.fetch.1) s.fetch.2
  | .halted => .fault .halted
  | .faulted kind => .fault (.faulted kind)

/-- s with the instruction word w (numbered as spec/opcode_table.json numbers it) in the cell the next fetch reads: it
stands for the load of a program from outside (log 28). -/
def State.withFetchWord (s : State) (nbits w : Nat) : State :=
  s.placeAtPc (BitVec.ofNat 16 (w % 2 ^ nbits))

end Sys2Proof.Machine
end

