-- ==== Sys2Proof/Machine/Environment.lean ====
section
/-! DEFINITION. What the environment may do to a running machine (70_reset_and_hazards.md R224): append characters to
IN_Q and end the run by a termination request (60_exceptions.md R185). Reading OUT_S changes nothing. -/

namespace Sys2Proof.Machine

/-- 00_scope.md R12: "the environment may append to it at any moment". The model lets characters arrive between steps,
which gives every completed behaviour (decision D21, log 23). -/
def State.arrive (s : State) (cs : List Byte) : State := { s with inQ := s.inQ ++ cs }

/-- One move of the machine and its environment together. -/
inductive Move where
  /-- The core takes a step. -/
  | step
  /-- The environment appends characters, in the order given. -/
  | arrive (cs : List Byte)
  /-- The host ends the run. -/
  | terminate
deriving DecidableEq, Repr

/-- Why a move gives no next state. -/
inductive NoMove where
  /-- The core has no step (60_exceptions.md R183; 40_loop.md R113). -/
  | noStep (f : Fault)
  /-- R185: the host's end of the run, "an outcome distinct from HALTED and from FAULTED" (decision D19, log 27). -/
  | terminated
deriving DecidableEq, Repr

/-- One move. R185 and R224 speak of a running machine; that a termination request on a machine that has stopped ends
nothing, and answers what a step would answer there, is the model's reading of "A run ends in exactly one of these ways"
(70_reset_and_hazards.md R222), and that characters may still arrive there is the model's choice: DESIGN CHOICE
(log 27), safe. -/
def move (m : Move) (s : State) : Host.Outcome State NoMove Refusal :=
  match m with
  | .step =>
    match step s with
    | .next t => .next t
    | .fault f => .fault (.noStep f)
    | .refused r => .refused r
  | .arrive cs => .next (s.arrive cs)
  | .terminate =>
    match s.run with
    | .running => .fault .terminated
    | .halted => .fault (.noStep .halted)
    | .faulted kind => .fault (.noStep (.faulted kind))

/-- How a run stands after a sequence of moves (70_reset_and_hazards.md R222, R223). -/
inductive RunEnd where
  /-- R222 a: the normal end, with the state after the HALT. -/
  | halted (final : State)
  /-- R222 b: a fault, with the state it stopped in; "not a final state of a successful run". -/
  | faulted (kind : ExceptionKind) (final : State)
  /-- R222 c: ended by the host; "the state at that moment has no architectural meaning" (R185). -/
  | terminated
  /-- No end yet: RUN is RUNNING and the moves are used up (R223: "Not final"). -/
  | unfinished (s : State)
  /-- An instruction without a meaning was met; no run of this model answers it. -/
  | refused (r : Refusal)
deriving DecidableEq, Repr

/-- The end a state shows by its RUN. -/
def State.runEnd (s : State) : RunEnd :=
  match s.run with
  | .running => .unfinished s
  | .halted => .halted s
  | .faulted kind => .faulted kind s

/-- A run: the moves in order, until the machine stops or the host ends it; nothing that comes after matters (R222,
"exactly one of these ways"). A step attempted while the machine waits for input leaves it as it is (R223 a, "RUN stays
RUNNING and no step is taken"). -/
def run : List Move → State → RunEnd
  | [], s => s.runEnd
  | m :: ms, s =>
    if s.run = .running then
      match move m s with
      | .next t => run ms t
      | .fault (.noStep _) => run ms s
      | .fault .terminated => .terminated
      | .refused r => .refused r
    else s.runEnd

end Sys2Proof.Machine
end

