-- ==== Sys2Proof/Machine/Loader.lean ====
section
/-! DEFINITION. Reset and boot (70_reset_and_hazards.md R210 to R216): the image format, the placement of images by
raw stores, and the state before the first fetch for any value of the open parameters (10_state.md R36). -/

namespace Sys2Proof.Machine

/-- R212: "an image is a pair (origin : Word, payload : list of Words)". -/
structure Image where
  origin : Word
  payload : List Word
deriving DecidableEq, Repr

/-- R212: the words of a byte string, "the first byte of each pair being bits 15:8"; none for an odd number. -/
def wordsOfBytes : List Byte → Option (List Word)
  | [] => some []
  | [_] => none
  | hi :: lo :: rest =>
    match wordsOfBytes rest with
    | some ws => some ((hi ++ lo) :: ws)
    | none => none

/-- R212: word 0 is the origin, the others the payload. A byte string of odd length or under two bytes "is not a
well-formed image" and is refused (decision D18, log 26). -/
def Image.ofBytes (bs : List Byte) : Option Image :=
  match wordsOfBytes bs with
  | some (origin :: payload) => some { origin := origin, payload := payload }
  | some [] => none
  | none => none

/-- R212: the big-endian bytes of an image. -/
def Image.toBytes (im : Image) : List Byte :=
  (im.origin :: im.payload).flatMap (fun w => [highByte w, lowByte w])

/-- R213: words placed from an address on, "raw store, no wrap", dropped "when the remaining capacity is exhausted". -/
def Memory.place (m : Memory) : Nat → List Word → Memory
  | _, [] => m
  | a, w :: ws => if a < Config.memCells then Memory.place (m.write a w) (a + 1) ws else m

/-- R213, for one image. -/
def Memory.loadImage (m : Memory) (im : Image) : Memory := m.place im.origin.toNat im.payload

/-- R214: "each is loaded in full, in the order given". -/
def Memory.loadImages (m : Memory) (ims : List Image) : Memory := ims.foldl Memory.loadImage m

/-- 00_scope.md R6: REG_INIT, COND_INIT, MEM_INIT, IN_PROMPT and HALT_MSG, and the input already supplied (10_state.md
R36). IMAGES is an argument of its own. -/
structure BootParams where
  regInit : RegFile
  condInit : Cond
  memInit : Memory
  inQ : List Byte
  texts : RunTexts
deriving DecidableEq, Repr

/-- 00_scope.md R6: "the default is what a simulator should use when nothing else is said". -/
def BootParams.default : BootParams where
  regInit := State.reset.regs
  condInit := State.reset.cond
  memInit := State.reset.mem
  inQ := State.reset.inQ
  texts := RunTexts.default

/-- R210, 10_state.md R36: the state before the first fetch. PC does not depend on any image's origin (R211). -/
def State.boot (p : BootParams) (ims : List Image) : State where
  regs := p.regInit
  pc := Config.pcStart
  cond := p.condInit
  run := .running
  mem := p.memInit.loadImages ims
  inQ := p.inQ
  outS := []
  flushed := 0
  texts := p.texts

/-- The images of a list of byte strings; none when one is refused. -/
def imagesOfFiles : List (List Byte) → Option (List Image)
  | [] => some []
  | f :: rest =>
    match Image.ofBytes f, imagesOfFiles rest with
    | some im, some ims => some (im :: ims)
    | _, _ => none

/-- R214, R216: loading "is all or nothing with respect to starting", and "a run always has at least one image":
none where no machine is started. -/
def State.bootFiles (p : BootParams) (files : List (List Byte)) : Option State :=
  match imagesOfFiles files with
  | some [] => none
  | some ims => some (State.boot p ims)
  | none => none

end Sys2Proof.Machine
end

