-- ==== Sys2Proof/Safety.lean ====
section
/-! DEFINITION. The terms claims are stated in: what is left unchanged (frames), what a read through MemRead does, the
invariant of the machine, and how a run ends. Nothing of the machine calls a definition of this file. -/

namespace Sys2Proof.Machine

/-! ### Frames -/

/-- Every general register holds what it held. -/
def RegsKept (s t : State) : Prop := ∀ r : Reg, t.readReg r = s.readReg r

/-- Every general register but d holds what it held. -/
def RegsKeptBut (d : Reg) (s t : State) : Prop := ∀ r : Reg, r ≠ d → t.readReg r = s.readReg r

/-- Every cell of the address space reads as it did. -/
def MemKept (s t : State) : Prop := ∀ a : Word, t.cell a = s.cell a

/-- Every cell of the address space but those listed reads as it did. -/
def MemKeptBut (cells : List Word) (s t : State) : Prop := ∀ a : Word, a ∉ cells → t.cell a = s.cell a

/-- OUT_S, the flush mark and the run's two texts are unchanged. -/
def OutputKept (s t : State) : Prop := t.outS = s.outS ∧ t.flushed = s.flushed ∧ t.texts = s.texts

/-- IN_Q, and all that `OutputKept` names, are unchanged. -/
def IoKept (s t : State) : Prop := t.inQ = s.inQ ∧ OutputKept s t

/-- PC (already incremented, 40_loop.md R110) and RUN are unchanged. -/
def PcRunKept (s t : State) : Prop := t.pc = s.pc ∧ t.run = s.run

/-- 10_state.md R22, R23: COND "reflects the signed 16-bit interpretation" of v. -/
def CondReflects (v : Word) (t : State) : Prop :=
  (t.cond = .n ↔ v.toInt < 0) ∧ (t.cond = .z ↔ v.toInt = 0) ∧ (t.cond = .p ↔ 0 < v.toInt)

/-! ### What a read does -/

/-- 20_memory.md R52 as a relation: reading address a in s gives v, with memory and input as t has them. At 0xFE00 the
keyboard is polled (decisions D9, D10; log 14, log 15); every other read changes nothing. -/
def ReadEffect (a v : Word) (s t : State) : Prop :=
  if a = Config.kbsr then
    match s.inQ with
    | [] => v = 0x0000 ∧ t.inQ = [] ∧ t.cell Config.kbsr = 0x0000 ∧ MemKeptBut [Config.kbsr] s t
    | c :: rest =>
      v = 0x8000 ∧ t.inQ = rest ∧ t.cell Config.kbsr = 0x8000 ∧ (t.cell Config.kbdr).toNat = c.toNat ∧
        MemKeptBut [Config.kbsr, Config.kbdr] s t
  else v = s.cell a ∧ t.inQ = s.inQ ∧ MemKept s t

/-- Memory from a on holds the non-zero words ws and then a zero word, none of them in the cell 0xFE00: a string of
44_trap.md R158 or R160 whose walk does not poll. -/
def StringAt (s : State) (a : Word) (ws : List Word) : Prop :=
  (∀ (k : Nat) (h : k < ws.length), s.cell (a + BitVec.ofNat 16 k) = ws[k] ∧ ws[k] ≠ 0 ∧
    a + BitVec.ofNat 16 k ≠ Config.kbsr) ∧
  s.cell (a + BitVec.ofNat 16 ws.length) = 0 ∧ a + BitVec.ofNat 16 ws.length ≠ Config.kbsr

/-- 44_trap.md R158: the bytes PUTS writes for a string: "each word's low byte". -/
def putsText (ws : List Word) : List Byte := ws.map (fun w => BitVec.ofNat 8 (w.toNat % 256))

/-- 44_trap.md R160: the bytes PUTSP writes for a string: "low byte then high byte, skip a zero high byte". -/
def putspText (ws : List Word) : List Byte :=
  ws.flatMap (fun w => BitVec.ofNat 8 (w.toNat % 256) ::
    if w.toNat / 256 = 0 then [] else [BitVec.ofNat 8 (w.toNat / 256)])

/-! ### Kinds of instructions -/

/-- 10_state.md R26: the instructions that write PC beside the loop's increment: BR, JMP, JSR, JSRR. -/
def writesPc : Instr → Bool
  | .br _ _ _ _ => true
  | .jmp _ => true
  | .jsr _ => true
  | .jsrr _ => true
  | .addReg _ _ _ => false
  | .addImm _ _ _ => false
  | .ld _ _ => false
  | .st _ _ => false
  | .andReg _ _ _ => false
  | .andImm _ _ _ => false
  | .ldr _ _ _ => false
  | .str _ _ _ => false
  | .rti => false
  | .not _ _ => false
  | .ldi _ _ => false
  | .sti _ _ => false
  | .res => false
  | .lea _ _ => false
  | .trapGetc => false
  | .trapOut => false
  | .trapPuts => false
  | .trapIn => false
  | .trapPutsp => false
  | .trapHalt => false
  | .trapUnassigned _ => false

/-- 10_state.md R24: the general register an instruction writes, if it writes one. -/
def regWritten : Instr → Option Reg
  | .br _ _ _ _ => none
  | .jmp _ => none
  | .jsr _ => some .r7
  | .jsrr _ => some .r7
  | .addReg dr _ _ => some dr
  | .addImm dr _ _ => some dr
  | .ld dr _ => some dr
  | .st _ _ => none
  | .andReg dr _ _ => some dr
  | .andImm dr _ _ => some dr
  | .ldr dr _ _ => some dr
  | .str _ _ _ => none
  | .rti => none
  | .not dr _ => some dr
  | .ldi dr _ => some dr
  | .sti _ _ => none
  | .res => none
  | .lea dr _ => some dr
  | .trapGetc => some .r0
  | .trapOut => none
  | .trapPuts => none
  | .trapIn => some .r0
  | .trapPutsp => none
  | .trapHalt => none
  | .trapUnassigned _ => none

/-! ### The invariant and the ends of a run -/

/-- What every state of a run from reset satisfies: memory is in its canonical form (log 1), COND is the flag of what
some general register holds ("derived from the last general-register write", 10_state.md R22, R29), and no more output
is marked flushed than was written (log 25). -/
def State.Inv (s : State) : Prop :=
  Memory.wf s.mem ∧ (∃ r : Reg, CondReflects (s.readReg r) s) ∧ s.flushed ≤ s.outS.length

/-- 70_reset_and_hazards.md R222 a: "the only end a correct program has". -/
def State.succeeded (s : State) : Bool := s.run = .halted

/-- 70_reset_and_hazards.md R222 b: "terminal but … not a final state of a successful run". -/
def State.failed (s : State) : Bool := s.run = .faulted .invalidOpcode || s.run = .faulted .invalidTrapCode

/-- A run does not end in a fault (R222 b), wherever among its moves the fault would come: "a claim that a program
'halts with result X' is refuted by a run that faults". -/
def SafeRun (ms : List Move) (s : State) : Prop := ∀ kind final, run ms s ≠ .faulted kind final

/-- R222 a: a run ends normally, in a final state with the property P. -/
def HaltsWith (P : State → Prop) (ms : List Move) (s : State) : Prop := ∃ final, run ms s = .halted final ∧ P final

end Sys2Proof.Machine
end

