-- ==== Sys2Proof/Certificates/Slice0/Obligations.lean ====
section
/-! DEFINITION. The statements about the model, for the provers. `s.pc` in a statement about `exec` is the incremented
PC (40_loop.md R110). -/

open Sys2Proof Sys2Proof.Machine

/-! ## Encoding (30_encoding.md) -/

/-- R80 to R87: no bit of an operand is lost between the encoder and the decoder. Opcode numbers and field positions
are decisions D1 and D2 (log 6, log 7). -/
def Obligations.DecodeOfEncode : Prop :=
  ∀ i : Instr, i.wf = true → decode (encode i) = i

/-- R85, R86: every word decodes to a well-formed instruction, and encoding it again gives the word's bits back but
for the ignored ones (log 9). -/
def Obligations.EncodeOfDecode : Prop :=
  ∀ w : Word, (decode w).wf = true ∧
    encode (decode w) &&& ~~~ ignoredMask (decode w) = w &&& ~~~ ignoredMask (decode w)

/-- R85: changing any of the bits outside every field of a word's format leaves the instruction the same; the masks are
the `x` bits of R83's formats (decision D4, log 9). -/
def Obligations.DecodeIgnoresOtherBits : Prop :=
  ∀ w m : Word, m &&& ignoredMask (decode w) = m → decode (w ^^^ m) = decode w

/-- R86: exactly one row of the table matches a word, and it is the row of the instruction the word decodes to. The rows'
opcode numbers and field positions are decisions D1 and D2 (log 6, log 7); that the six rows of TRAP with an unassigned
code are one instruction is the model's choice (log 30). -/
def Obligations.OneTableRowMatches : Prop :=
  ∀ w : Word, ((opcodeTable.filter (fun row => w &&& row.1 = row.2.1)).map (fun row => row.2.2)) =
    [(decode w).mnemonic]

/-- R83, R92 and the vectors A1, A5, A9, A13, B5, B7, B12, B15, M1, M5, M7, M10, M14, M17, M19, T1 to T20, X1, X3: the
words written out in the spec decode to what they are written for. Every word rests on decisions D1 and D2 (log 6,
log 7). -/
def Obligations.SampleWordsDecode : Prop :=
  decode 0x1042 = .addReg .r0 .r1 .r2 ∧ decode 0x103F = .addImm .r0 .r0 0x1F ∧
  decode 0x5042 = .andReg .r0 .r1 .r2 ∧ decode 0x56E0 = .andImm .r3 .r3 0 ∧
  decode 0x907F = .not .r0 .r1 ∧ decode 0x03FD = .br false false true 0x1FD ∧
  decode 0xC1C0 = .jmp .r7 ∧ decode 0x4804 = .jsr 4 ∧ decode 0x40C0 = .jsrr .r3 ∧
  decode 0x2001 = .ld .r0 1 ∧ decode 0xA005 = .ldi .r0 5 ∧ decode 0x6641 = .ldr .r3 .r1 1 ∧
  decode 0xE00A = .lea .r0 10 ∧ decode 0x3001 = .st .r0 1 ∧ decode 0xBA08 = .sti .r5 8 ∧
  decode 0x7842 = .str .r4 .r1 2 ∧ decode 0xF020 = .trapGetc ∧ decode 0xF021 = .trapOut ∧
  decode 0xF022 = .trapPuts ∧ decode 0xF023 = .trapIn ∧ decode 0xF024 = .trapPutsp ∧
  decode 0xF025 = .trapHalt ∧ decode 0xF026 = .trapUnassigned 0x26 ∧ decode 0x8000 = .rti ∧
  decode 0xD000 = .res

/-! ## Words and flags (00_scope.md, 10_state.md) -/

/-- 00_scope.md R9: sext_n in both of the rule's forms, for every width the rule allows, with the signed value kept;
and zext. -/
def Obligations.SignAndZeroExtension : Prop :=
  (∀ (n : Nat) (x : BitVec n), 1 ≤ n → n ≤ 15 →
    (sext n x).toNat = (if x.toNat < 2 ^ (n - 1) then x.toNat else x.toNat + 65536 - 2 ^ n) ∧
    (∀ k : Nat, k < n → (sext n x).getLsbD k = x.getLsbD k) ∧
    (∀ k : Nat, n ≤ k → k < 16 → (sext n x).getLsbD k = x.getLsbD (n - 1)) ∧
    (sext n x).toInt = x.toInt) ∧
  (∀ b : Byte, (zext b).toNat = b.toNat)

/-- 10_state.md R23: the flag of a word by its bit 15 and by its value. -/
def Obligations.FlagOfWord : Prop :=
  ∀ v : Word,
    (flag v = .n ↔ v.getLsbD 15 = true) ∧ (flag v = .n ↔ 0x8000 ≤ v.toNat) ∧
    (flag v = .z ↔ v = 0x0000) ∧ (flag v = .p ↔ 0x0001 ≤ v.toNat ∧ v.toNat ≤ 0x7FFF) ∧
    (flag v = .n ↔ v.toInt < 0) ∧ (flag v = .p ↔ 0 < v.toInt)

/-- 10_state.md R22: the register write stores the value and sets COND from it, for every register; an instruction that
writes a register sets COND from what it wrote, also where that is what the register held; and no instruction changes a
register without COND being set from the register's new value. -/
def Obligations.EveryRegisterWriteSetsCond : Prop :=
  (∀ (s : State) (r : Reg) (v : Word), (s.writeReg r v).readReg r = v ∧ (s.writeReg r v).cond = flag v ∧
    RegsKeptBut r s (s.writeReg r v)) ∧
  (∀ (i : Instr) (s t : State) (d : Reg), exec i s = .next t → regWritten i = some d →
    t.cond = flag (t.readReg d)) ∧
  (∀ (i : Instr) (s t : State) (r : Reg), exec i s = .next t → t.readReg r ≠ s.readReg r →
    t.cond = flag (t.readReg r))

/-- 10_state.md R24, R29: an instruction changes no general register but the one R24 lists for it, sets COND from that
register where it writes one (LEA, JSR, JSRR, GETC and IN too, as R29 derives), and leaves COND alone where it writes
none. -/
def Obligations.RegistersWrittenPerInstruction : Prop :=
  ∀ (i : Instr) (s t : State), exec i s = .next t →
    match regWritten i with
    | some d => RegsKeptBut d s t ∧ CondReflects (t.readReg d) t
    | none => RegsKept s t ∧ t.cond = s.cond

/-- 10_state.md R29, "Read: by BR only": what COND holds makes no difference to any other instruction, but to the COND
an instruction that writes no register leaves behind. -/
def Obligations.CondReadOnlyByBr : Prop :=
  ∀ (i : Instr) (s t : State) (c : Cond), (∀ n z p off, i ≠ .br n z p off) → exec i s = .next t →
    ∃ t', exec i { s with cond := c } = .next t' ∧ { t' with cond := t.cond } = t

/-! ## Memory (20_memory.md) -/

/-- R52: MemRead gives the word and the effect of the rule, at every address, and touches nothing but memory and the
input. That 0xFE00 becomes exactly 0x8000 and that a character is zero-extended are decisions D9 and D10 (log 14,
log 15). -/
def Obligations.MemReadEffect : Prop :=
  ∀ (s : State) (a : Word), ReadEffect a (s.memRead a).1 s (s.memRead a).2 ∧ RegsKept s (s.memRead a).2 ∧
    (s.memRead a).2.cond = s.cond ∧ PcRunKept s (s.memRead a).2 ∧ OutputKept s (s.memRead a).2

/-- R53: a store changes the one cell and nothing else, at every address, the keyboard's two among them. -/
def Obligations.MemWriteIsPlainStore : Prop :=
  ∀ (s : State) (a v : Word), (s.memWrite a v).cell a = v ∧ MemKeptBut [a] s (s.memWrite a v) ∧
    ∃ m : Memory, s.memWrite a v = { s with mem := m }

/-- R54, R56: "Reading KBSR twice with one character pending gives 0x8000 then 0x0000", and the character stays in
KBDR, whose reading changes nothing. The exact 0x8000 is decision D9 (log 14). -/
def Obligations.KbsrReadTwice : Prop :=
  ∀ (s : State) (c : Byte), s.inQ = [c] →
    let first := s.memRead Config.kbsr
    let second := first.2.memRead Config.kbsr
    let data := second.2.memRead Config.kbdr
    first.1 = 0x8000 ∧ second.1 = 0x0000 ∧ data.1.toNat = c.toNat ∧ data.2 = second.2 ∧ data.2.inQ = []

/-- Log 1, 10_state.md R33: two memories in canonical form that read alike at every address are the same data. -/
def Obligations.CanonicalMemoriesAreEqual : Prop :=
  ∀ m m' : Memory, Memory.wf m → Memory.wf m' → (∀ a : Word, m.read a.toNat = m'.read a.toNat) → m = m'

/-! ## The step (40_loop.md) -/

/-- R110: a step of a running machine is the execution of the instruction fetched through MemRead at PC, with PC
incremented first; away from 0xFE00 the fetch changes nothing else. -/
def Obligations.StepRunsDecodedInstruction : Prop :=
  (∀ s : State, s.run = .running →
    step s = exec (decode (s.memRead s.pc).1) { (s.memRead s.pc).2 with pc := s.pc + 1 }) ∧
  (∀ (s : State) (i : Instr), s.run = .running → s.pc ≠ Config.kbsr → decode (s.cell s.pc) = i →
    step s = exec i { s with pc := s.pc + 1 })

/-- R58 a (decision D8, log 13; vectors K5, K6): a step at 0xFE00 polls the keyboard; with nothing pending it is a
branch never taken, with a character pending it is RTI and faults. -/
def Obligations.FetchFromKbsrPolls : Prop :=
  ∀ s : State, s.run = .running → s.pc = Config.kbsr →
    ∃ t, step s = .next t ∧ t.pc = 0xFE01 ∧ RegsKept s t ∧ t.cond = s.cond ∧ OutputKept s t ∧
      (s.inQ = [] → t.run = .running ∧ ReadEffect Config.kbsr 0x0000 s t) ∧
      (s.inQ ≠ [] → t.run = .faulted .invalidOpcode ∧ ReadEffect Config.kbsr 0x8000 s t)

/-- R113, "A state with RUN ≠ RUNNING has no step": the step answers a fault that says why (log 21), and a state that
has a step is running. -/
def Obligations.NoStepUnlessRunning : Prop :=
  ∀ s : State, (s.run = .halted → step s = .fault .halted) ∧
    (∀ k, s.run = .faulted k → step s = .fault (.faulted k)) ∧
    (∀ t, step s = .next t → s.run = .running)

/-- R112: the three ways out of RUNNING, each exactly when its instruction was fetched. The FAULTED values are decision
D15 (log 20). -/
def Obligations.LeavingRunning : Prop :=
  ∀ s t : State, s.run = .running → step s = .next t →
    (t.run = .halted ↔ decode (s.memRead s.pc).1 = .trapHalt) ∧
    (t.run = .faulted .invalidOpcode ↔
      decode (s.memRead s.pc).1 = .rti ∨ decode (s.memRead s.pc).1 = .res) ∧
    (t.run = .faulted .invalidTrapCode ↔ ∃ code, decode (s.memRead s.pc).1 = .trapUnassigned code)

/-- R113, R221: a running machine always has a step, unless it is at GETC or IN with no character pending. That the
walks of PUTS and PUTSP always end is the model's consequence of decisions D12 and D21 (log 24). -/
def Obligations.RunningMachineStepsUnlessWaiting : Prop :=
  ∀ s : State, s.run = .running →
    (∃ t, step s = .next t) ∨
    (step s = .fault .waitingForInput ∧ s.inQ = [] ∧
      (decode (s.cell s.pc) = .trapGetc ∨ decode (s.cell s.pc) = .trapIn))

/-- 30_encoding.md R89: the words 0x0000 to 0x01FF only advance PC, whatever COND holds. That these words are BR with no
condition bit rests on decisions D1 and D2 (log 6, log 7), the increment at 0xFFFF on D7 (log 12). -/
def Obligations.NopWordsOnlyAdvancePc : Prop :=
  ∀ s : State, s.run = .running → s.pc ≠ Config.kbsr → (s.cell s.pc).toNat < 0x0200 →
    step s = .next { s with pc := s.pc + 1 }

/-- 30_encoding.md R88, 60_exceptions.md R181: every word 0x8000 to 0x8FFF and 0xD000 to 0xDFFF faults with InvalidOpcode
and changes nothing else but PC. The FAULTED values are decision D15 (log 20), the opcode numbers D1 (log 6). -/
def Obligations.ReservedWordsFault : Prop :=
  (∀ s : State, exec .rti s = .next { s with run := .faulted .invalidOpcode }) ∧
  (∀ s : State, exec .res s = .next { s with run := .faulted .invalidOpcode }) ∧
  (∀ s : State, s.run = .running → s.pc ≠ Config.kbsr →
    (s.cell s.pc).toNat / 0x1000 = 0x8 ∨ (s.cell s.pc).toNat / 0x1000 = 0xD →
    step s = .next { s with pc := s.pc + 1, run := .faulted .invalidOpcode })

/-- 30_encoding.md R88, 60_exceptions.md R182: every TRAP word whose low byte is none of 0x20 to 0x25 faults with
InvalidTrapCode and changes nothing else but PC. The FAULTED values are decision D15 (log 20). -/
def Obligations.UnassignedTrapWordsFault : Prop :=
  (∀ (code : Byte) (s : State), exec (.trapUnassigned code) s = .next { s with run := .faulted .invalidTrapCode }) ∧
  (∀ s : State, s.run = .running → s.pc ≠ Config.kbsr → 0xF000 ≤ (s.cell s.pc).toNat →
    (s.cell s.pc).toNat % 256 < 0x20 ∨ 0x25 < (s.cell s.pc).toNat % 256 →
    step s = .next { s with pc := s.pc + 1, run := .faulted .invalidTrapCode })

/-- 20_memory.md R67: "a store is seen by every later fetch of that address": the word stored at an address is the one a
step at that address executes, through one move of PC and any store elsewhere in between. -/
def Obligations.StoreSeenByLaterFetch : Prop :=
  ∀ (s : State) (a v b w : Word), s.run = .running → a ≠ Config.kbsr → b ≠ a →
    step { (s.memWrite a v).memWrite b w with pc := a } =
      exec (decode v) { (s.memWrite a v).memWrite b w with pc := a + 1 }

/-! ## Arithmetic and logic (41_alu.md) -/

/-- R120: ADD, register form: the sum modulo 65536 in DR, COND from it, nothing else. -/
def Obligations.AddRegisterForm : Prop :=
  ∀ (dr sr1 sr2 : Reg) (s : State), ∃ t, exec (.addReg dr sr1 sr2) s = .next t ∧
    (t.readReg dr).toNat = ((s.readReg sr1).toNat + (s.readReg sr2).toNat) % 65536 ∧
    CondReflects (t.readReg dr) t ∧ RegsKeptBut dr s t ∧ PcRunKept s t ∧ MemKept s t ∧ IoKept s t

/-- R121: ADD, immediate form: the signed 5-bit immediate is added modulo 65536. -/
def Obligations.AddImmediateForm : Prop :=
  ∀ (dr sr1 : Reg) (imm5 : BitVec 5) (s : State), ∃ t, exec (.addImm dr sr1 imm5) s = .next t ∧
    ((t.readReg dr).toNat : Int) = ((s.readReg sr1).toNat + imm5.toInt) % 65536 ∧
    CondReflects (t.readReg dr) t ∧ RegsKeptBut dr s t ∧ PcRunKept s t ∧ MemKept s t ∧ IoKept s t

/-- R122: AND, register form, bit by bit. -/
def Obligations.AndRegisterForm : Prop :=
  ∀ (dr sr1 sr2 : Reg) (s : State), ∃ t, exec (.andReg dr sr1 sr2) s = .next t ∧
    (∀ k : Nat, (t.readReg dr).getLsbD k = ((s.readReg sr1).getLsbD k && (s.readReg sr2).getLsbD k)) ∧
    CondReflects (t.readReg dr) t ∧ RegsKeptBut dr s t ∧ PcRunKept s t ∧ MemKept s t ∧ IoKept s t

/-- R123: AND, immediate form: bits 3:0 with the immediate's, bits 15:4 with its sign bit. -/
def Obligations.AndImmediateForm : Prop :=
  ∀ (dr sr1 : Reg) (imm5 : BitVec 5) (s : State), ∃ t, exec (.andImm dr sr1 imm5) s = .next t ∧
    (∀ k : Nat, (t.readReg dr).getLsbD k = ((s.readReg sr1).getLsbD k && imm5.getLsbD (min k 4))) ∧
    CondReflects (t.readReg dr) t ∧ RegsKeptBut dr s t ∧ PcRunKept s t ∧ MemKept s t ∧ IoKept s t

/-- R124: NOT: "equals 0xFFFF − a". -/
def Obligations.NotComplements : Prop :=
  ∀ (dr sr1 : Reg) (s : State), ∃ t, exec (.not dr sr1) s = .next t ∧
    (t.readReg dr).toNat = 0xFFFF - (s.readReg sr1).toNat ∧
    CondReflects (t.readReg dr) t ∧ RegsKeptBut dr s t ∧ PcRunKept s t ∧ MemKept s t ∧ IoKept s t

/-! ## Control transfer (42_control.md) -/

/-- R130 and 10_state.md R28 (decision D3, log 8): the branch is taken exactly when a selected condition bit meets the
held COND, which is the document's "(branch-condition-bits AND COND) ≠ 0"; only PC can change. -/
def Obligations.BranchOnCondition : Prop :=
  ∀ (n z p : Bool) (off9 : BitVec 9) (s : State), ∃ t, exec (.br n z p off9) s = .next t ∧
    ((n = true ∧ s.cond = .n) ∨ (z = true ∧ s.cond = .z) ∨ (p = true ∧ s.cond = .p) →
      (t.pc.toNat : Int) = (s.pc.toNat + off9.toInt) % 65536) ∧
    (¬ ((n = true ∧ s.cond = .n) ∨ (z = true ∧ s.cond = .z) ∨ (p = true ∧ s.cond = .p)) → t.pc = s.pc) ∧
    (brTaken n z p s.cond = true ↔
      (BitVec.ofBool n ++ BitVec.ofBool z ++ BitVec.ofBool p) &&& s.cond.bits ≠ 0) ∧
    RegsKept s t ∧ t.cond = s.cond ∧ t.run = s.run ∧ MemKept s t ∧ IoKept s t

/-- R131: JMP: PC from the base register, nothing else. -/
def Obligations.JumpThroughRegister : Prop :=
  ∀ (baseR : Reg) (s : State), ∃ t, exec (.jmp baseR) s = .next t ∧ t.pc = s.readReg baseR ∧
    RegsKept s t ∧ t.cond = s.cond ∧ t.run = s.run ∧ MemKept s t ∧ IoKept s t

/-- R132: JSR: the return address in R7, COND from it, the 11-bit relative target. -/
def Obligations.CallRelative : Prop :=
  ∀ (off11 : BitVec 11) (s : State), ∃ t, exec (.jsr off11) s = .next t ∧ t.readReg .r7 = s.pc ∧
    (t.pc.toNat : Int) = (s.pc.toNat + off11.toInt) % 65536 ∧
    CondReflects s.pc t ∧ RegsKeptBut .r7 s t ∧ t.run = s.run ∧ MemKept s t ∧ IoKept s t

/-- R133: JSRR: the return address in R7 first, then the target read: `JSRR R7` falls through (decision D6, log 11). -/
def Obligations.CallThroughRegister : Prop :=
  ∀ (baseR : Reg) (s : State), ∃ t, exec (.jsrr baseR) s = .next t ∧ t.readReg .r7 = s.pc ∧
    (baseR ≠ .r7 → t.pc = s.readReg baseR) ∧ (baseR = .r7 → t.pc = s.pc) ∧
    CondReflects s.pc t ∧ RegsKeptBut .r7 s t ∧ t.run = s.run ∧ MemKept s t ∧ IoKept s t

/-! ## Loads, stores, address (43_load_store.md) -/

/-- R140: LD: the word read through MemRead at the PC-relative address, which alone may change memory and input. -/
def Obligations.LoadPcRelative : Prop :=
  ∀ (dr : Reg) (off9 : BitVec 9) (s : State), ∃ t, exec (.ld dr off9) s = .next t ∧
    ReadEffect (s.pc + sext 9 off9) (t.readReg dr) s t ∧
    CondReflects (t.readReg dr) t ∧ RegsKeptBut dr s t ∧ PcRunKept s t ∧ OutputKept s t

/-- R141: LDI: the pointer read, then the data read at the pointer. -/
def Obligations.LoadIndirect : Prop :=
  ∀ (dr : Reg) (off9 : BitVec 9) (s : State),
    let pointer := s.memRead (s.pc + sext 9 off9)
    ∃ t, exec (.ldi dr off9) s = .next t ∧
      ReadEffect (s.pc + sext 9 off9) pointer.1 s pointer.2 ∧
      ReadEffect pointer.1 (t.readReg dr) pointer.2 t ∧
      CondReflects (t.readReg dr) t ∧ RegsKeptBut dr s t ∧ PcRunKept s t ∧ OutputKept s t

/-- R142: LDR: the word read at base plus offset; the address is formed from the base's old value. -/
def Obligations.LoadBaseOffset : Prop :=
  ∀ (dr baseR : Reg) (off6 : BitVec 6) (s : State), ∃ t, exec (.ldr dr baseR off6) s = .next t ∧
    ReadEffect (s.readReg baseR + sext 6 off6) (t.readReg dr) s t ∧
    CondReflects (t.readReg dr) t ∧ RegsKeptBut dr s t ∧ PcRunKept s t ∧ OutputKept s t

/-- R143: LEA: the PC-relative address itself; no read, so nothing polls. -/
def Obligations.LoadEffectiveAddress : Prop :=
  ∀ (dr : Reg) (off9 : BitVec 9) (s : State), ∃ t, exec (.lea dr off9) s = .next t ∧
    ((t.readReg dr).toNat : Int) = (s.pc.toNat + off9.toInt) % 65536 ∧
    CondReflects (t.readReg dr) t ∧ RegsKeptBut dr s t ∧ PcRunKept s t ∧ MemKept s t ∧ IoKept s t

/-- R144: ST: the register's word in the one cell at the PC-relative address. -/
def Obligations.StorePcRelative : Prop :=
  ∀ (sr : Reg) (off9 : BitVec 9) (s : State), ∃ t, exec (.st sr off9) s = .next t ∧
    t.cell (s.pc + sext 9 off9) = s.readReg sr ∧ MemKeptBut [s.pc + sext 9 off9] s t ∧
    RegsKept s t ∧ t.cond = s.cond ∧ PcRunKept s t ∧ IoKept s t

/-- R145: STI: the pointer read through MemRead, then the store at the pointer, in the state that read leaves. -/
def Obligations.StoreIndirect : Prop :=
  ∀ (sr : Reg) (off9 : BitVec 9) (s : State),
    let pointer := s.memRead (s.pc + sext 9 off9)
    ∃ t, exec (.sti sr off9) s = .next t ∧
      ReadEffect (s.pc + sext 9 off9) pointer.1 s pointer.2 ∧
      t.cell pointer.1 = s.readReg sr ∧ MemKeptBut [pointer.1] pointer.2 t ∧ t.inQ = pointer.2.inQ ∧
      RegsKept s t ∧ t.cond = s.cond ∧ PcRunKept s t ∧ OutputKept s t

/-- R146: STR: the register's word in the one cell at base plus offset; the base is not modified. -/
def Obligations.StoreBaseOffset : Prop :=
  ∀ (sr baseR : Reg) (off6 : BitVec 6) (s : State), ∃ t, exec (.str sr baseR off6) s = .next t ∧
    t.cell (s.readReg baseR + sext 6 off6) = s.readReg sr ∧
    MemKeptBut [s.readReg baseR + sext 6 off6] s t ∧
    RegsKept s t ∧ t.cond = s.cond ∧ PcRunKept s t ∧ IoKept s t

/-! ## Trap services (44_trap.md) -/

/-- R156: GETC takes the oldest pending character into R0, zero-extended (decision D10, log 15), and writes no output. -/
def Obligations.GetcTakesCharacter : Prop :=
  ∀ (s : State) (c : Byte) (rest : List Byte), s.inQ = c :: rest →
    ∃ t, exec .trapGetc s = .next t ∧ (t.readReg .r0).toNat = c.toNat ∧ t.inQ = rest ∧
      (t.cond = .z ↔ c = 0) ∧ (t.cond = .p ↔ c ≠ 0) ∧
      RegsKeptBut .r0 s t ∧ PcRunKept s t ∧ MemKept s t ∧ OutputKept s t

/-- R159: IN writes the prompt, takes the oldest pending character into R0, flushes, and does not echo (decision D13,
log 18). The prompt is the run's, whatever it is. -/
def Obligations.InPromptsAndTakes : Prop :=
  ∀ (s : State) (c : Byte) (rest : List Byte), s.inQ = c :: rest →
    ∃ t, exec .trapIn s = .next t ∧ (t.readReg .r0).toNat = c.toNat ∧ t.inQ = rest ∧
      (t.cond = .z ↔ c = 0) ∧ (t.cond = .p ↔ c ≠ 0) ∧
      t.outS = s.outS ++ s.texts.inPrompt ∧ t.flushed = t.outS.length ∧
      RegsKeptBut .r0 s t ∧ PcRunKept s t ∧ MemKept s t

/-- R113 d, R156, R159, R196 (decisions D17, D21; log 22): with no character pending GETC and IN have no step, and the
arrival of characters ends the wait. -/
def Obligations.GetcAndInWaitForInput : Prop :=
  ∀ s : State, s.inQ = [] →
    exec .trapGetc s = .fault .waitingForInput ∧ exec .trapIn s = .fault .waitingForInput ∧
    ∀ (c : Byte) (cs : List Byte),
      (∃ t, exec .trapGetc (s.arrive (c :: cs)) = .next t ∧ t.inQ = cs ∧ (t.readReg .r0).toNat = c.toNat) ∧
      (∃ t, exec .trapIn (s.arrive (c :: cs)) = .next t ∧ t.inQ = cs ∧ (t.readReg .r0).toNat = c.toNat)

/-- R157: OUT writes the low byte of R0 (decision D11, log 16) and flushes. -/
def Obligations.OutWritesLowByte : Prop :=
  ∀ s : State, ∃ t, exec .trapOut s = .next t ∧
    t.outS = s.outS ++ [BitVec.ofNat 8 ((s.readReg .r0).toNat % 256)] ∧ t.flushed = t.outS.length ∧
    RegsKept s t ∧ t.cond = s.cond ∧ PcRunKept s t ∧ MemKept s t ∧ t.inQ = s.inQ

/-- R158, R160, R163, R221: PUTS and PUTSP always complete, from every state; they append to the output, flush, write no
register, leave COND and PC, and change no cell but the keyboard's two. That they always complete is the model's
consequence of decisions D12 and D21 (log 24): every walk meets 0xFE00. -/
def Obligations.PutServicesComplete : Prop :=
  ∀ (i : Instr) (s : State), i = .trapPuts ∨ i = .trapPutsp →
    ∃ t, exec i s = .next t ∧ RegsKept s t ∧ t.cond = s.cond ∧ PcRunKept s t ∧
      MemKeptBut [Config.kbsr, Config.kbdr] s t ∧ (∃ bs, t.outS = s.outS ++ bs) ∧
      t.flushed = t.outS.length ∧ (∃ k, t.inQ = s.inQ.drop k)

/-- R158: one turn of PUTS's loop: a zero word ends it with a flush; any other word has its low byte written and the
service goes on at the next address (modulo 65536), in the state the read leaves, which is polled at 0xFE00 (decision
D12, log 17). -/
def Obligations.PutsLoopTurn : Prop :=
  ∀ s : State,
    let r := s.memRead (s.readReg .r0)
    let onward : RegFile := s.regs.set .r0 (s.readReg .r0 + 1)
    (r.1 = 0x0000 → exec .trapPuts s = .next { r.2 with flushed := r.2.outS.length }) ∧
    (r.1 ≠ 0x0000 → ∃ t, exec .trapPuts s = .next t ∧
      exec .trapPuts { r.2 with outS := r.2.outS ++ putsText [r.1], regs := onward } =
        .next { t with regs := onward })

/-- R160: one turn of PUTSP's loop, as R158's with the two bytes of a packed word. -/
def Obligations.PutspLoopTurn : Prop :=
  ∀ s : State,
    let r := s.memRead (s.readReg .r0)
    let onward : RegFile := s.regs.set .r0 (s.readReg .r0 + 1)
    (r.1 = 0x0000 → exec .trapPutsp s = .next { r.2 with flushed := r.2.outS.length }) ∧
    (r.1 ≠ 0x0000 → ∃ t, exec .trapPutsp s = .next t ∧
      exec .trapPutsp { r.2 with outS := r.2.outS ++ putspText [r.1], regs := onward } =
        .next { t with regs := onward })

/-- R158: PUTS on a string that does not touch 0xFE00 writes the low byte of each word, in order, flushes, and changes
nothing else. -/
def Obligations.PutsWritesString : Prop :=
  ∀ (s : State) (ws : List Word), StringAt s (s.readReg .r0) ws →
    exec .trapPuts s = .next { s with
      outS := s.outS ++ putsText ws, flushed := (s.outS ++ putsText ws).length }

/-- R160: PUTSP on a packed string that does not touch 0xFE00. -/
def Obligations.PutspWritesString : Prop :=
  ∀ (s : State) (ws : List Word), StringAt s (s.readReg .r0) ws →
    exec .trapPutsp s = .next { s with
      outS := s.outS ++ putspText ws, flushed := (s.outS ++ putspText ws).length }

/-- R161: HALT writes the run's halt indication, whatever its text (decision D14, log 19), flushes, and stops the
machine; after it there is no step. -/
def Obligations.HaltStopsTheMachine : Prop :=
  ∀ s : State, ∃ t, exec .trapHalt s = .next t ∧ t.run = .halted ∧ t.outS = s.outS ++ s.texts.haltMsg ∧
    t.flushed = t.outS.length ∧ RegsKept s t ∧ t.cond = s.cond ∧ t.pc = s.pc ∧ MemKept s t ∧
    t.inQ = s.inQ ∧ step t = .fault .halted

/-- R163 a, b, c and R155 (decision D5, log 10): no TRAP writes a general register but R0, and only GETC and IN write
that; none changes PC; none writes memory, but for the poll of a walk that reads 0xFE00. -/
def Obligations.TrapsKeepRegistersAndPc : Prop :=
  ∀ (i : Instr) (s t : State),
    i ∈ [Instr.trapGetc, .trapOut, .trapPuts, .trapIn, .trapPutsp, .trapHalt] → exec i s = .next t →
    RegsKeptBut .r0 s t ∧ (i ≠ .trapGetc → i ≠ .trapIn → RegsKept s t) ∧ t.pc = s.pc ∧
    MemKeptBut [Config.kbsr, Config.kbdr] s t ∧ (i ≠ .trapPuts → i ≠ .trapPutsp → MemKept s t)

/-! ## The whole machine -/

/-- Logs 1 and 25, 10_state.md R22, R29: a step, and every other move of the machine and its environment, keeps the
invariant. -/
def Obligations.EveryMoveKeepsInv : Prop :=
  (∀ s t : State, s.Inv → step s = .next t → t.Inv) ∧
  (∀ (m : Move) (s t : State), s.Inv → move m s = .next t → t.Inv)

/-- 10_state.md R36: PC and RUN as the spec gives them after reset; the other values are the defaults the log names
(logs 2 to 5), and the invariant holds of them. -/
def Obligations.ResetMeetsInv : Prop :=
  State.reset.pc = 0x3000 ∧ State.reset.run = .running ∧ State.reset.Inv

/-- 00_scope.md R12, 10_state.md R34, R35: a step only appends to the output and only takes from the front of the input;
and neither it nor any other move changes the run's IN_PROMPT and HALT_MSG (log 32). -/
def Obligations.OutputGrowsInputShrinks : Prop :=
  (∀ s t : State, step s = .next t → (∃ bs, t.outS = s.outS ++ bs) ∧ (∃ k, t.inQ = s.inQ.drop k)) ∧
  (∀ (m : Move) (s t : State), move m s = .next t → t.texts = s.texts)

/-- 20_memory.md R53, R58, R62, R64: in a step, a cell other than the keyboard's two changes only as the target of ST, STI
or STR, which then holds the stored register. -/
def Obligations.OnlyStoresChangeMemory : Prop :=
  ∀ (s t : State) (a : Word), step s = .next t → a ≠ Config.kbsr → a ≠ Config.kbdr → t.cell a ≠ s.cell a →
    ∃ sr : Reg, t.cell a = s.readReg sr ∧
      ((∃ off9, decode (s.cell s.pc) = .st sr off9 ∧ a = s.pc + 1 + sext 9 off9) ∨
       (∃ off9, decode (s.cell s.pc) = .sti sr off9 ∧ a = (s.memRead (s.pc + 1 + sext 9 off9)).1) ∨
       (∃ baseR off6, decode (s.cell s.pc) = .str sr baseR off6 ∧ a = s.readReg baseR + sext 6 off6))

/-- 10_state.md R25, R26: every instruction but BR, JMP, JSR and JSRR leaves PC one past its own address. -/
def Obligations.OnlyControlWritesPc : Prop :=
  ∀ s t : State, step s = .next t → writesPc (decode (s.memRead s.pc).1) = false →
    t.pc.toNat = (s.pc.toNat + 1) % 65536

/-- 00_scope.md R12, 40_loop.md R114 (log 23): characters that arrive behind one the step leaves pending make no
difference to the step. -/
def Obligations.LaterInputDoesNotDisturb : Prop :=
  ∀ (s t : State) (cs : List Byte), step s = .next t → t.inQ ≠ [] →
    step (s.arrive cs) = .next (t.arrive cs)

/-! ## Reset, boot and images (70_reset_and_hazards.md) -/

/-- R210, R211, 10_state.md R36: the boot state for every value of the open parameters and every list of images, its
memory in canonical form (log 1), and State.reset as the boot with the defaults the log names and no image (logs 2 to 5,
18, 19, 28). That a later image of the list is placed after the earlier ones is the order of log 26. -/
def Obligations.BootState : Prop :=
  (∀ (p : BootParams) (ims : List Image),
    (State.boot p ims).pc = 0x3000 ∧ (State.boot p ims).run = .running ∧
    (∀ r, (State.boot p ims).readReg r = p.regInit.get r) ∧ (State.boot p ims).cond = p.condInit ∧
    (State.boot p ims).outS = [] ∧ (State.boot p ims).inQ = p.inQ ∧ (State.boot p ims).texts = p.texts) ∧
  (∀ p : BootParams, (State.boot p []).mem = p.memInit) ∧
  (∀ (p : BootParams) (ims : List Image), Memory.wf p.memInit → Memory.wf (State.boot p ims).mem) ∧
  (∀ (p : BootParams) (ims : List Image) (im : Image),
    (State.boot p (ims ++ [im])).mem = (State.boot p ims).mem.loadImage im) ∧
  State.boot BootParams.default [] = State.reset

/-- R213: the cells an image covers hold its words, words past 0xFFFF are dropped, and every other cell keeps what it
held. -/
def Obligations.ImagePlacement : Prop :=
  ∀ (m : Memory) (im : Image) (a : Word),
    (∀ k : Nat, (h : k < im.payload.length) → im.origin.toNat + k = a.toNat →
      (m.loadImage im).read a.toNat = im.payload[k]) ∧
    (a.toNat < im.origin.toNat ∨ im.origin.toNat + im.payload.length ≤ a.toNat →
      (m.loadImage im).read a.toNat = m.read a.toNat)

/-- R212: an image is read from its big-endian bytes, the first byte of each pair being bits 15:8. Byte strings that are
no image are refused, decision D18 (log 26). -/
def Obligations.ImageBytes : Prop :=
  (∀ im : Image, Image.ofBytes im.toBytes = some im) ∧
  (∀ (b0 b1 : Byte) (rest : List Byte) (im : Image), Image.ofBytes (b0 :: b1 :: rest) = some im →
    im.origin.toNat = b0.toNat * 256 + b1.toNat) ∧
  (∀ bs : List Byte, (∃ im, Image.ofBytes bs = some im) ↔ bs.length % 2 = 0 ∧ 2 ≤ bs.length)

/-! ## The end of a run (70_reset_and_hazards.md) -/

/-- 70_reset_and_hazards.md R222 (and R161, R185): a run of a running machine ends in HALTED only by a HALT, whose
message then ends the output and whose address PC is one past; in FAULTED only by a step that faults; by termination only
where the host asks for it. Once it has ended, no further move changes how it ended, so that a fault anywhere among the
moves makes the run unsafe, and a run that halts is safe. What a termination request does to a stopped machine is the
model's choice (log 27). -/
def Obligations.RunEndsInOneWay : Prop :=
  (∀ (ms : List Move) (s t : State), s.run = .running → run ms s = .halted t →
    ∃ u, u.run = .running ∧ decode (u.memRead u.pc).1 = .trapHalt ∧ step u = .next t ∧ t.run = .halted ∧
      t.pc = u.pc + 1 ∧ ∃ bs, t.outS = bs ++ s.texts.haltMsg) ∧
  (∀ (ms : List Move) (s t : State) (k : ExceptionKind), s.run = .running → run ms s = .faulted k t →
    ∃ u, u.run = .running ∧ step u = .next t ∧ t.run = .faulted k) ∧
  (∀ (ms : List Move) (s : State), run ms s = .terminated → Move.terminate ∈ ms) ∧
  (∀ (ms : List Move) (s : State), s.run = .running → run (.terminate :: ms) s = .terminated) ∧
  (∀ (ms more : List Move) (s : State), (∀ u, run ms s ≠ .unfinished u) → run (ms ++ more) s = run ms s) ∧
  (∀ (ms more : List Move) (s u t : State) (k : ExceptionKind), run ms s = .unfinished u → step u = .next t →
    t.run = .faulted k → ¬ SafeRun (ms ++ .step :: more) s) ∧
  (∀ (P : State → Prop) (ms : List Move) (s : State), HaltsWith P ms s → SafeRun ms s)
end

