-- ==== Sys2Proof/Laws/Decode.lean ====
section
/-! SUPPORT. The fields of a word built format by format (30_encoding.md R83), by the word's value. -/

namespace Sys2Proof

@[simp] theorem Reg.ofBits_toBits (r : Reg) : Reg.ofBits r.toBits = r := by cases r <;> rfl

@[simp] theorem Opcode.ofBits_toBits (o : Opcode) : Opcode.ofBits o.toBits = o := by cases o <;> rfl

@[simp] theorem Reg.toBits_ofBits : ∀ b : BitVec 3, (Reg.ofBits b).toBits = b := by decide

@[simp] theorem Opcode.toBits_ofBits : ∀ b : BitVec 4, (Opcode.ofBits b).toBits = b := by decide

/-- A field's value (00_scope.md R7). -/
theorem toNat_field (w : Word) (lo len : Nat) : (field w lo len).toNat = w.toNat / 2 ^ lo % 2 ^ len := by
  simp [field, Nat.shiftRight_eq_div_pow]

/-- A bit's value (00_scope.md R7). -/
theorem getLsbD_eq (w : Word) (k : Nat) : w.getLsbD k = decide (w.toNat / 2 ^ k % 2 = 1) := by
  rw [← BitVec.testBit_toNat, Nat.testBit_eq_decide_div_mod_eq]

/-- `a ++ b` is "concatenation with a in the more significant position" (00_scope.md R7). -/
theorem toNat_append_add {m n : Nat} (x : BitVec m) (y : BitVec n) : (x ++ y).toNat = x.toNat * 2 ^ n + y.toNat := by
  rw [BitVec.toNat_append, ← Nat.shiftLeft_add_eq_or_of_lt y.isLt, Nat.shiftLeft_eq]

/-! ### The fields of each format, from the word's value -/

section
variable {w : Word} {op : BitVec 4} {a b c : BitVec 3}

/-- Opcode over twelve bits: every format's opcode. -/
theorem opcodeField_of {x : BitVec 12} (hw : w.toNat = op.toNat * 4096 + x.toNat) : opcodeField w = op := by
  have := op.isLt; have := x.isLt
  apply BitVec.eq_of_toNat_eq
  rw [opcodeField, toNat_field]; omega

/-- Format PC9. -/
theorem fields_pc9 {o : BitVec 9} (hw : w.toNat = (op.toNat * 8 + a.toNat) * 512 + o.toNat) :
    opcodeField w = op ∧ field w 9 3 = a ∧ field w 0 9 = o := by
  have := op.isLt; have := a.isLt; have := o.isLt
  refine ⟨?_, ?_, ?_⟩ <;> apply BitVec.eq_of_toNat_eq <;> simp only [opcodeField, toNat_field] <;> omega

/-- Format BR. -/
theorem fields_br {n z p : Bool} {o : BitVec 9}
    (hw : w.toNat = (((op.toNat * 2 + n.toNat) * 2 + z.toNat) * 2 + p.toNat) * 512 + o.toNat) :
    opcodeField w = op ∧ w.getLsbD 11 = n ∧ w.getLsbD 10 = z ∧ w.getLsbD 9 = p ∧ field w 0 9 = o := by
  have := op.isLt; have := o.isLt
  refine ⟨BitVec.eq_of_toNat_eq ?_, ?_, ?_, ?_, BitVec.eq_of_toNat_eq ?_⟩ <;>
    simp only [opcodeField, toNat_field, getLsbD_eq, hw] <;> cases n <;> cases z <;> cases p <;>
    simp only [Bool.toNat_true, Bool.toNat_false, decide_eq_true_eq, decide_eq_false_iff_not] <;> omega

/-- Format OPR: ADD and AND with I = 0. -/
theorem fields_opr (hw : w.toNat = (((op.toNat * 8 + a.toNat) * 8 + b.toNat) * 8) * 8 + c.toNat) :
    opcodeField w = op ∧ field w 9 3 = a ∧ field w 6 3 = b ∧ field w 0 3 = c ∧ w.getLsbD 5 = false := by
  have := op.isLt; have := a.isLt; have := b.isLt; have := c.isLt
  refine ⟨?_, ?_, ?_, ?_, ?_⟩ <;> (try apply BitVec.eq_of_toNat_eq) <;>
    simp only [opcodeField, toNat_field, getLsbD_eq, decide_eq_false_iff_not] <;> omega

/-- Format OPI: ADD and AND with I = 1. -/
theorem fields_opi {i : BitVec 5}
    (hw : w.toNat = (((op.toNat * 8 + a.toNat) * 8 + b.toNat) * 2 + 1) * 32 + i.toNat) :
    opcodeField w = op ∧ field w 9 3 = a ∧ field w 6 3 = b ∧ field w 0 5 = i ∧ w.getLsbD 5 = true := by
  have := op.isLt; have := a.isLt; have := b.isLt; have := i.isLt
  refine ⟨?_, ?_, ?_, ?_, ?_⟩ <;> (try apply BitVec.eq_of_toNat_eq) <;>
    simp only [opcodeField, toNat_field, getLsbD_eq, decide_eq_true_eq] <;> omega

/-- Formats B6, UN, JR and JSRR: opcode, two selectors, six bits. -/
theorem fields_b6 {o : BitVec 6} (hw : w.toNat = ((op.toNat * 8 + a.toNat) * 8 + b.toNat) * 64 + o.toNat) :
    opcodeField w = op ∧ field w 9 3 = a ∧ field w 6 3 = b ∧ field w 0 6 = o := by
  have := op.isLt; have := a.isLt; have := b.isLt; have := o.isLt
  refine ⟨?_, ?_, ?_, ?_⟩ <;> apply BitVec.eq_of_toNat_eq <;> simp only [opcodeField, toNat_field] <;> omega

/-- Format JS. -/
theorem fields_js {o : BitVec 11} (hw : w.toNat = (op.toNat * 2 + 1) * 2048 + o.toNat) :
    opcodeField w = op ∧ w.getLsbD 11 = true ∧ field w 0 11 = o := by
  have := op.isLt; have := o.isLt
  refine ⟨?_, ?_, ?_⟩ <;> (try apply BitVec.eq_of_toNat_eq) <;>
    simp only [opcodeField, toNat_field, getLsbD_eq, decide_eq_true_eq] <;> omega

/-- Format JSRR's flag: ir[11] is the top bit of the first selector's place. -/
theorem longFlag_b6 {o : BitVec 6} (hw : w.toNat = ((op.toNat * 8 + a.toNat) * 8 + b.toNat) * 64 + o.toNat)
    (ha : a.toNat < 4) : w.getLsbD 11 = false := by
  have := op.isLt; have := b.isLt; have := o.isLt
  simp only [getLsbD_eq, decide_eq_false_iff_not]; omega

/-- Format TR. -/
theorem fields_tr {x : BitVec 4} {t : Byte} (hw : w.toNat = (op.toNat * 16 + x.toNat) * 256 + t.toNat) :
    opcodeField w = op ∧ field w 0 8 = t := by
  have := op.isLt; have := x.isLt; have := t.isLt
  refine ⟨?_, ?_⟩ <;> apply BitVec.eq_of_toNat_eq <;> simp only [opcodeField, toNat_field] <;> omega

end

/-- Format TR of the encoder. -/
theorem fields_encodeTrap (t : Byte) : opcodeField (encodeTrap t) = Opcode.toBits .trap ∧ field (encodeTrap t) 0 8 = t :=
  fields_tr (x := 0) (by
    show BitVec.toNat (w := 4 + 4 + 8) (_ ++ _ ++ _) = _
    simp only [toNat_append_add]; rfl)

theorem decode_encodeTrap (t : Byte) : decode (encodeTrap t) = decodeTrap t := by
  obtain ⟨h1, h2⟩ := fields_encodeTrap t
  simp only [decode, h1, h2, Opcode.ofBits_toBits]

/-- A code that names no service stays what it is (44_trap.md R162). -/
theorem decodeTrap_unassigned {t : Byte} (h : trapAssigned t = false) : decodeTrap t = .trapUnassigned t := by
  simp only [trapAssigned, Bool.and_eq_false_iff, decide_eq_false_iff_not] at h
  unfold decodeTrap
  split <;> first | rfl | omega

end Sys2Proof
end

