-- ==== Sys2Proof/Laws/Memory.lean ====
section
/-! SUPPORT. Memory as data: a read after a write, the canonical form kept by every operation, and canonical memories
that read alike are equal. -/

namespace Sys2Proof.Machine

/-- A fresh cell put in reads as its value and hides no other. -/
theorem Memory.read_putCell {m : Memory} {a : Nat} (hfresh : ∀ c ∈ m, c.1 ≠ a) (b : Nat) (v : Word) :
    Memory.read (Memory.putCell a v m) b = if b = a then v else Memory.read m b := by
  induction m with
  | nil =>
    by_cases h : b = a
    · simp [Memory.putCell, Memory.read, h]
    · simp [Memory.putCell, Memory.read, h, Ne.symm h]
  | cons c rest ih =>
    obtain ⟨x, w⟩ := c
    have hx : x ≠ a := hfresh (x, w) List.mem_cons_self
    have ih := ih fun c hc => hfresh c (List.mem_cons_of_mem _ hc)
    simp only [Memory.putCell]
    by_cases h : b = a
    · subst h
      split <;> simp [Memory.read, ih, hx]
    · split <;> simp [Memory.read, ih, h, Ne.symm h]

theorem Memory.fresh_dropCell (m : Memory) (a : Nat) : ∀ c ∈ m.dropCell a, c.1 ≠ a := fun c hc => by
  simpa using (List.mem_filter.1 hc).2

theorem Memory.read_dropCell (m : Memory) (a b : Nat) :
    (m.dropCell a).read b = if b = a then Memory.unlisted else m.read b := by
  induction m with
  | nil => simp [Memory.dropCell, Memory.read]
  | cons c rest ih =>
    obtain ⟨x, w⟩ := c
    by_cases hx : x = a
    · subst hx
      simp only [Memory.dropCell, List.filter_cons, ne_eq, not_true, decide_false] at ih ⊢
      simp only [Memory.read]
      simp only [Bool.false_eq_true, if_false, ih]
      split_ifs <;> simp_all
    · simp only [Memory.dropCell, List.filter_cons, ne_eq, hx, not_false_eq_true, decide_true, if_true] at ih ⊢
      simp only [Memory.read, ih]
      split_ifs <;> simp_all

/-- A read after a write: the value written at the address written, every other address as before. -/
theorem Memory.read_write (m : Memory) (a b : Nat) (v : Word) :
    (m.write a v).read b = if b = a then v else m.read b := by
  unfold Memory.write
  split
  · next h => rw [Memory.read_dropCell, h]
  · rw [Memory.read_putCell (Memory.fresh_dropCell m a), Memory.read_dropCell]
    split <;> rfl

theorem Memory.wf_dropCell {m : Memory} (a : Nat) (h : Memory.wf m) : Memory.wf (m.dropCell a) :=
  ⟨h.1.filter _, fun c hc => h.2 c (List.mem_of_mem_filter hc)⟩

theorem Memory.mem_putCell {m : Memory} {a : Nat} {v : Word} {c : Nat × Word}
    (h : c ∈ Memory.putCell a v m) : c = (a, v) ∨ c ∈ m := by
  induction m with
  | nil => simpa [Memory.putCell] using h
  | cons d rest ih =>
    obtain ⟨x, w⟩ := d
    simp only [Memory.putCell] at h
    split at h
    · simpa using h
    · rcases List.mem_cons.1 h with h | h
      · exact .inr (h ▸ List.mem_cons_self)
      · exact (ih h).imp id (List.mem_cons_of_mem _)

theorem Memory.wf_putCell {m : Memory} {a : Nat} {v : Word} (h : Memory.wf m) (ha : a < Config.memCells)
    (hv : v ≠ Memory.unlisted) (hfresh : ∀ c ∈ m, c.1 ≠ a) : Memory.wf (Memory.putCell a v m) := by
  refine ⟨?_, fun c hc => ?_⟩
  · have hs := h.1
    clear h
    induction m with
    | nil => simp [Memory.putCell]
    | cons d rest ih =>
      obtain ⟨x, w⟩ := d
      rw [List.pairwise_cons] at hs
      have hx := hfresh (x, w) List.mem_cons_self
      simp only [Memory.putCell]
      split
      · next hlt =>
        refine List.pairwise_cons.2 ⟨fun c hc => ?_, List.pairwise_cons.2 hs⟩
        rcases List.mem_cons.1 hc with rfl | hc
        · exact hlt
        · exact Nat.lt_trans hlt (hs.1 c hc)
      · next hlt =>
        refine List.pairwise_cons.2 ⟨fun c hc => ?_, ih (fun c hc => hfresh c (List.mem_cons_of_mem _ hc)) hs.2⟩
        rcases Memory.mem_putCell hc with rfl | hc
        · simp only at hx ⊢
          omega
        · exact hs.1 c hc
  · rcases Memory.mem_putCell hc with rfl | hc
    · exact ⟨ha, hv⟩
    · exact h.2 c hc

/-- A write inside the address space keeps the canonical form. -/
theorem Memory.wf_write {m : Memory} {a : Nat} (v : Word) (h : Memory.wf m) (ha : a < Config.memCells) :
    Memory.wf (m.write a v) := by
  unfold Memory.write
  split
  · exact Memory.wf_dropCell a h
  · next hv =>
    exact Memory.wf_putCell (Memory.wf_dropCell a h) ha hv (Memory.fresh_dropCell m a)

/-- A write at a word's address keeps the canonical form. -/
theorem Memory.wf_write_word {m : Memory} (a v : Word) (h : Memory.wf m) : Memory.wf (m.write a.toNat v) :=
  Memory.wf_write v h a.isLt

theorem Memory.read_of_forall_gt {m : Memory} {a : Nat} (h : ∀ c ∈ m, a < c.1) : m.read a = Memory.unlisted := by
  induction m with
  | nil => rfl
  | cons d rest ih =>
    obtain ⟨x, w⟩ := d
    have hx := h (x, w) List.mem_cons_self
    simp only at hx
    simp only [Memory.read]
    rw [if_neg (by omega), ih fun c hc => h c (List.mem_cons_of_mem _ hc)]

/-- Words placed from an address on: the cells they cover hold them, every other cell is kept (R213). -/
theorem Memory.read_place (ws : List Word) : ∀ (m : Memory) (a b : Nat), b < Config.memCells →
    (m.place a ws).read b = if h : a ≤ b ∧ b < a + ws.length then ws[b - a] else m.read b := by
  induction ws with
  | nil =>
    intro m a b _
    have : ¬ (a ≤ b ∧ b < a + ([] : List Word).length) := by simp
    simp only [this, dif_neg, not_false_eq_true, Memory.place]
  | cons w ws ih =>
    intro m a b hb
    simp only [Memory.place]
    split
    · rw [ih _ _ _ hb]
      rcases Nat.lt_trichotomy b a with h | h | h
      · rw [dif_neg (by omega), dif_neg (by omega), Memory.read_write, if_neg (by omega)]
      · subst h
        rw [dif_neg (by omega), dif_pos (by simp), Memory.read_write, if_pos rfl]
        simp
      · by_cases hlen : b < a + (ws.length + 1)
        · rw [dif_pos (by omega), dif_pos (by simp; omega)]
          have : b - a = (b - (a + 1)) + 1 := by omega
          simp [this]
        · rw [dif_neg (by omega), dif_neg (by simp; omega), Memory.read_write, if_neg (by omega)]
    · next ha => rw [dif_neg (by omega)]

theorem Memory.wf_place (ws : List Word) : ∀ {m : Memory} (a : Nat), Memory.wf m → Memory.wf (m.place a ws) := by
  induction ws with
  | nil => intro m a h; exact h
  | cons w ws ih =>
    intro m a h
    simp only [Memory.place]
    split
    · next ha => exact ih _ (Memory.wf_write w h ha)
    · exact h

/-- Every image keeps the canonical form. -/
theorem Memory.wf_loadImages (ims : List Image) : ∀ {m : Memory}, Memory.wf m → Memory.wf (m.loadImages ims) := by
  induction ims with
  | nil => intro m h; exact h
  | cons im ims ih => intro m h; exact ih (Memory.wf_place _ _ h)

end Sys2Proof.Machine
end

