-- ==== Sys2Proof/Laws/State.lean ====
section
/-! SUPPORT. One lemma for each field under each named update of State, true by rfl, and the register file's own laws:
no later proof unfolds a record update. -/

namespace Sys2Proof.Machine

/-! ### The register file -/

@[simp] theorem RegFile.get_set (f : RegFile) (r q : Reg) (v : Word) :
    (f.set r v).get q = if q = r then v else f.get q := by
  cases r <;> cases q <;> rfl

theorem RegFile.ext_get {f g : RegFile} (h : ∀ r, f.get r = g.get r) : f = g := by
  cases f; cases g
  simp only [RegFile.mk.injEq]
  exact ⟨h .r0, h .r1, h .r2, h .r3, h .r4, h .r5, h .r6, h .r7⟩

theorem RegFile.set_set_get (f : RegFile) (r : Reg) (v : Word) : (f.set r v).set r (f.get r) = f :=
  RegFile.ext_get fun q => by by_cases h : q = r <;> simp [h]

/-! ### Reading a register after an update -/

section
variable (s : State) (r q : Reg) (a v : Word) (b : Byte) (k : ExceptionKind)

@[simp] theorem readReg_writeReg : (s.writeReg r v).readReg q = if q = r then v else s.readReg q :=
  RegFile.get_set s.regs r q v
@[simp] theorem readReg_writePc : (s.writePc v).readReg q = s.readReg q := rfl
@[simp] theorem readReg_setCell : (s.setCell a v).readReg q = s.readReg q := rfl
@[simp] theorem readReg_memWrite : (s.memWrite a v).readReg q = s.readReg q := rfl
@[simp] theorem readReg_outByte : (s.outByte b).readReg q = s.readReg q := rfl
@[simp] theorem readReg_outFlush : s.outFlush.readReg q = s.readReg q := rfl
@[simp] theorem readReg_raise : (s.raise k).readReg q = s.readReg q := rfl

/-! ### The fields after an update -/

@[simp] theorem regs_writePc : (s.writePc v).regs = s.regs := rfl
@[simp] theorem regs_setCell : (s.setCell a v).regs = s.regs := rfl
@[simp] theorem regs_memWrite : (s.memWrite a v).regs = s.regs := rfl
@[simp] theorem regs_outByte : (s.outByte b).regs = s.regs := rfl
@[simp] theorem regs_outFlush : s.outFlush.regs = s.regs := rfl
@[simp] theorem regs_raise : (s.raise k).regs = s.regs := rfl

@[simp] theorem pc_writeReg : (s.writeReg r v).pc = s.pc := rfl
@[simp] theorem pc_writePc : (s.writePc v).pc = v := rfl
@[simp] theorem pc_setCell : (s.setCell a v).pc = s.pc := rfl
@[simp] theorem pc_memWrite : (s.memWrite a v).pc = s.pc := rfl
@[simp] theorem pc_outByte : (s.outByte b).pc = s.pc := rfl
@[simp] theorem pc_outFlush : s.outFlush.pc = s.pc := rfl
@[simp] theorem pc_raise : (s.raise k).pc = s.pc := rfl

@[simp] theorem cond_writeReg : (s.writeReg r v).cond = flag v := rfl
@[simp] theorem cond_writePc : (s.writePc v).cond = s.cond := rfl
@[simp] theorem cond_setCell : (s.setCell a v).cond = s.cond := rfl
@[simp] theorem cond_memWrite : (s.memWrite a v).cond = s.cond := rfl
@[simp] theorem cond_outByte : (s.outByte b).cond = s.cond := rfl
@[simp] theorem cond_outFlush : s.outFlush.cond = s.cond := rfl
@[simp] theorem cond_raise : (s.raise k).cond = s.cond := rfl

@[simp] theorem run_writeReg : (s.writeReg r v).run = s.run := rfl
@[simp] theorem run_writePc : (s.writePc v).run = s.run := rfl
@[simp] theorem run_setCell : (s.setCell a v).run = s.run := rfl
@[simp] theorem run_memWrite : (s.memWrite a v).run = s.run := rfl
@[simp] theorem run_outByte : (s.outByte b).run = s.run := rfl
@[simp] theorem run_outFlush : s.outFlush.run = s.run := rfl
@[simp] theorem run_raise : (s.raise k).run = .faulted k := rfl

@[simp] theorem mem_writeReg : (s.writeReg r v).mem = s.mem := rfl
@[simp] theorem mem_writePc : (s.writePc v).mem = s.mem := rfl
@[simp] theorem mem_setCell : (s.setCell a v).mem = s.mem.write a.toNat v := rfl
@[simp] theorem mem_memWrite : (s.memWrite a v).mem = s.mem.write a.toNat v := rfl
@[simp] theorem mem_outByte : (s.outByte b).mem = s.mem := rfl
@[simp] theorem mem_outFlush : s.outFlush.mem = s.mem := rfl
@[simp] theorem mem_raise : (s.raise k).mem = s.mem := rfl

@[simp] theorem cell_writeReg : (s.writeReg r v).cell a = s.cell a := rfl
@[simp] theorem cell_writePc : (s.writePc v).cell a = s.cell a := rfl
@[simp] theorem cell_outByte : (s.outByte b).cell a = s.cell a := rfl
@[simp] theorem cell_outFlush : s.outFlush.cell a = s.cell a := rfl
@[simp] theorem cell_raise : (s.raise k).cell a = s.cell a := rfl

@[simp] theorem inQ_writeReg : (s.writeReg r v).inQ = s.inQ := rfl
@[simp] theorem inQ_writePc : (s.writePc v).inQ = s.inQ := rfl
@[simp] theorem inQ_setCell : (s.setCell a v).inQ = s.inQ := rfl
@[simp] theorem inQ_memWrite : (s.memWrite a v).inQ = s.inQ := rfl
@[simp] theorem inQ_outByte : (s.outByte b).inQ = s.inQ := rfl
@[simp] theorem inQ_outFlush : s.outFlush.inQ = s.inQ := rfl
@[simp] theorem inQ_raise : (s.raise k).inQ = s.inQ := rfl

@[simp] theorem outS_writeReg : (s.writeReg r v).outS = s.outS := rfl
@[simp] theorem outS_writePc : (s.writePc v).outS = s.outS := rfl
@[simp] theorem outS_setCell : (s.setCell a v).outS = s.outS := rfl
@[simp] theorem outS_memWrite : (s.memWrite a v).outS = s.outS := rfl
@[simp] theorem outS_outByte : (s.outByte b).outS = s.outS ++ [b] := rfl
@[simp] theorem outS_outFlush : s.outFlush.outS = s.outS := rfl
@[simp] theorem outS_raise : (s.raise k).outS = s.outS := rfl

@[simp] theorem flushed_writeReg : (s.writeReg r v).flushed = s.flushed := rfl
@[simp] theorem flushed_writePc : (s.writePc v).flushed = s.flushed := rfl
@[simp] theorem flushed_setCell : (s.setCell a v).flushed = s.flushed := rfl
@[simp] theorem flushed_memWrite : (s.memWrite a v).flushed = s.flushed := rfl
@[simp] theorem flushed_outByte : (s.outByte b).flushed = s.flushed := rfl
@[simp] theorem flushed_outFlush : s.outFlush.flushed = s.outS.length := rfl
@[simp] theorem flushed_raise : (s.raise k).flushed = s.flushed := rfl

@[simp] theorem texts_writeReg : (s.writeReg r v).texts = s.texts := rfl
@[simp] theorem texts_writePc : (s.writePc v).texts = s.texts := rfl
@[simp] theorem texts_setCell : (s.setCell a v).texts = s.texts := rfl
@[simp] theorem texts_memWrite : (s.memWrite a v).texts = s.texts := rfl
@[simp] theorem texts_outByte : (s.outByte b).texts = s.texts := rfl
@[simp] theorem texts_outFlush : s.outFlush.texts = s.texts := rfl
@[simp] theorem texts_raise : (s.raise k).texts = s.texts := rfl

end

@[simp] theorem outBytes_eq (s : State) (bs : List Byte) : s.outBytes bs = { s with outS := s.outS ++ bs } := rfl

/-- Appending the list is `OutByte` for each byte in order (44_trap.md R159, R161). -/
theorem outBytes_eq_foldl (s : State) (bs : List Byte) : s.outBytes bs = bs.foldl State.outByte s := by
  induction bs generalizing s with
  | nil => simp
  | cons b bs ih => rw [List.foldl_cons, ← ih]; simp [State.outByte]

end Sys2Proof.Machine
end

