-- ==== Sys2Proof/Laws/Ops.lean ====
section
/-! SUPPORT. What each shared operation can do, said once: cells, the flag, extension, MemRead, InTake, the string walk of
PUTS and PUTSP. The meanings' lemmas cite these. -/

namespace Sys2Proof.Machine

/-! ### Cells -/

/-- The raw store: the one cell and no other (20_memory.md R53). -/
@[simp] theorem cell_setCell (s : State) (a b v : Word) :
    (s.setCell a v).cell b = if b = a then v else s.cell b := by
  simp only [State.cell, State.setCell, Memory.read_write, ← BitVec.toNat_inj]

@[simp] theorem cell_memWrite (s : State) (a b v : Word) :
    (s.memWrite a v).cell b = if b = a then v else s.cell b := cell_setCell s a b v

/-! ### The flag and extension -/

/-- The three cases of the flag by the signed value (10_state.md R23). -/
theorem flag_cases (v : Word) :
    (flag v = .n ∧ v.toInt < 0) ∨ (flag v = .z ∧ v.toInt = 0) ∨ (flag v = .p ∧ 0 < v.toInt) := by
  have hlt := v.isLt
  unfold flag
  by_cases h : v.getLsbD 15 = true
  · rw [if_pos h]
    have : v.msb = true := by rwa [BitVec.msb_eq_getLsbD_last]
    rw [BitVec.msb_eq_true_iff_two_mul_ge] at this
    refine .inl ⟨rfl, ?_⟩
    rw [BitVec.toInt_eq_toNat_cond]
    split <;> omega
  · rw [if_neg h]
    have : v.msb = false := by rw [BitVec.msb_eq_getLsbD_last]; simpa using h
    rw [BitVec.msb_eq_false_iff_two_mul_lt] at this
    have hi : v.toInt = v.toNat := by rw [BitVec.toInt_eq_toNat_cond, if_pos this]
    by_cases hz : v = 0
    · subst hz; exact .inr (.inl ⟨rfl, rfl⟩)
    · rw [if_neg hz]
      have : v.toNat ≠ 0 := fun h0 => hz (BitVec.eq_of_toNat_eq h0)
      exact .inr (.inr ⟨rfl, by omega⟩)

/-- R9's formula is two's-complement sign extension. -/
theorem sext_eq_signExtend {n : Nat} (x : BitVec n) (h1 : 1 ≤ n) (h15 : n ≤ 15) : sext n x = x.signExtend 16 := by
  apply BitVec.eq_of_getLsbD_eq
  intro i hi
  have hm : x.msb = x.getLsbD (n - 1) := BitVec.msb_eq_getLsbD_last x
  have hones : ∀ k, (0xFFFF#16).getLsbD k = decide (k < 16) := fun k => by
    rw [show (0xFFFF#16) = BitVec.allOnes 16 from rfl, BitVec.getLsbD_allOnes]
  unfold sext
  rw [BitVec.getLsbD_signExtend, hm]
  by_cases hb : x.getLsbD (n - 1) = true
  · rw [if_pos hb]
    simp only [BitVec.getLsbD_or, BitVec.getLsbD_setWidth, BitVec.getLsbD_shiftLeft, hones, hi, decide_true,
      Bool.true_and, hb]
    by_cases hin : i < n
    · simp [hin]
    · simp [hin, BitVec.getLsbD_of_ge x i (by omega)]
      omega
  · rw [if_neg hb]
    simp only [BitVec.getLsbD_setWidth, hi, decide_true, Bool.true_and]
    by_cases hin : i < n
    · simp [hin]
    · simp [hin, BitVec.getLsbD_of_ge x i (by omega), hb]

/-- A sign-extended field keeps its signed value (30_encoding.md R84). -/
theorem toInt_sext {n : Nat} (x : BitVec n) (h1 : 1 ≤ n) (h15 : n ≤ 15) : (sext n x).toInt = x.toInt := by
  rw [sext_eq_signExtend x h1 h15, BitVec.toInt_signExtend_of_le (by omega)]

/-! ### InTake and MemRead -/

theorem inTake_nil {s : State} (h : s.inQ = []) : s.inTake = none := by simp [State.inTake, h]

theorem inTake_cons {s : State} {c : Byte} {rest : List Byte} (h : s.inQ = c :: rest) :
    s.inTake = some (c, { s with inQ := rest }) := by simp [State.inTake, h]

/-- R12 a: InTake answers at once exactly when a character is pending. -/
theorem inTake_isSome (s : State) : s.inTake.isSome = s.pollInputReady := by
  cases h : s.inQ <;> simp [State.inTake, State.pollInputReady, h]

/-- R52 away from 0xFE00: "a direct array access". -/
theorem memRead_plain (s : State) {a : Word} (h : a ≠ Config.kbsr) : s.memRead a = (s.cell a, s) := if_neg h

/-- R52 at 0xFE00 with nothing pending. -/
theorem memRead_kbsr_nil {s : State} (h : s.inQ = []) :
    s.memRead Config.kbsr = (0x0000, s.setCell Config.kbsr 0x0000) := by
  simp [State.memRead, State.pollKeyboard, inTake_nil h]

/-- R52 at 0xFE00 with a character pending. -/
theorem memRead_kbsr_cons {s : State} {c : Byte} {rest : List Byte} (h : s.inQ = c :: rest) :
    s.memRead Config.kbsr =
      (0x8000, (({ s with inQ := rest } : State).setCell Config.kbsr 0x8000).setCell Config.kbdr (zext c)) := by
  simp [State.memRead, State.pollKeyboard, inTake_cons h, Config.kbsr, Config.kbdr]

/-- Everything a read can do, in one place: it is plain, or it polls an empty input, or it takes a character. -/
theorem memRead_cases (s : State) (a : Word) :
    (a ≠ Config.kbsr ∧ s.memRead a = (s.cell a, s)) ∨
    (a = Config.kbsr ∧ s.inQ = [] ∧ s.memRead a = (0x0000, s.setCell Config.kbsr 0x0000)) ∨
    (a = Config.kbsr ∧ ∃ c rest, s.inQ = c :: rest ∧ s.memRead a =
      (0x8000, (({ s with inQ := rest } : State).setCell Config.kbsr 0x8000).setCell Config.kbdr (zext c))) := by
  by_cases h : a = Config.kbsr
  · subst h
    cases hq : s.inQ with
    | nil => exact .inr (.inl ⟨rfl, rfl, memRead_kbsr_nil hq⟩)
    | cons c rest => exact .inr (.inr ⟨rfl, c, rest, rfl, memRead_kbsr_cons hq⟩)
  · exact .inl ⟨h, memRead_plain s h⟩

section
variable (s : State) (a : Word)

/-- What a read leaves alone. -/
theorem memRead_frame : (s.memRead a).2 = { s with mem := (s.memRead a).2.mem, inQ := (s.memRead a).2.inQ } := by
  rcases memRead_cases s a with ⟨_, h⟩ | ⟨_, _, h⟩ | ⟨_, c, rest, _, h⟩ <;> rw [h] <;> rfl

@[simp] theorem regs_memRead : (s.memRead a).2.regs = s.regs := by rw [memRead_frame]
@[simp] theorem readReg_memRead (r : Reg) : (s.memRead a).2.readReg r = s.readReg r := by
  simp [State.readReg]
@[simp] theorem pc_memRead : (s.memRead a).2.pc = s.pc := by rw [memRead_frame]
@[simp] theorem cond_memRead : (s.memRead a).2.cond = s.cond := by rw [memRead_frame]
@[simp] theorem run_memRead : (s.memRead a).2.run = s.run := by rw [memRead_frame]
@[simp] theorem outS_memRead : (s.memRead a).2.outS = s.outS := by rw [memRead_frame]
@[simp] theorem flushed_memRead : (s.memRead a).2.flushed = s.flushed := by rw [memRead_frame]
@[simp] theorem texts_memRead : (s.memRead a).2.texts = s.texts := by rw [memRead_frame]

/-- A read takes at most one character, from the front. -/
theorem inQ_memRead : ∃ k, (s.memRead a).2.inQ = s.inQ.drop k := by
  rcases memRead_cases s a with ⟨_, h⟩ | ⟨_, _, h⟩ | ⟨_, c, rest, hq, h⟩ <;> rw [h]
  · exact ⟨0, rfl⟩
  · exact ⟨0, rfl⟩
  · exact ⟨1, by simp [hq]⟩

/-- A read changes no cell but the keyboard's two. -/
theorem cell_memRead {b : Word} (h1 : b ≠ Config.kbsr) (h2 : b ≠ Config.kbdr) : (s.memRead a).2.cell b = s.cell b := by
  rcases memRead_cases s a with ⟨_, h⟩ | ⟨_, _, h⟩ | ⟨_, c, rest, _, h⟩ <;> rw [h]
  · simp [h1]
  · simp only [cell_setCell, h1, h2, if_false]
    rfl

/-- A read keeps the memory's canonical form. -/
theorem wf_memRead (h : Memory.wf s.mem) : Memory.wf (s.memRead a).2.mem := by
  rcases memRead_cases s a with ⟨_, e⟩ | ⟨_, _, e⟩ | ⟨_, c, rest, _, e⟩ <;> rw [e]
  · exact h
  · exact Memory.wf_write_word Config.kbsr 0x0000 h
  · exact Memory.wf_write_word Config.kbdr (zext c) (Memory.wf_write_word Config.kbsr 0x8000 h)

/-- What registers, PC and COND hold makes no difference to a read. -/
theorem memRead_congr (f : RegFile) (p : Word) (c : Cond) :
    State.memRead { s with regs := f, pc := p, cond := c } a =
      ((s.memRead a).1, { (s.memRead a).2 with regs := f, pc := p, cond := c }) := by
  rcases memRead_cases s a with ⟨ha, h⟩ | ⟨rfl, hq, h⟩ | ⟨rfl, d, rest, hq, h⟩ <;> rw [h]
  · exact memRead_plain _ ha
  · exact memRead_kbsr_nil (s := { s with regs := f, pc := p, cond := c }) hq
  · exact memRead_kbsr_cons (s := { s with regs := f, pc := p, cond := c }) hq

end

/-! ### The string walk -/

section
variable (bytes : Word → List Byte)

/-- One turn of the walk. -/
theorem putString_succ (n : Nat) (a : Word) (s : State) :
    State.putString bytes (n + 1) a s =
      if (s.memRead a).1 = 0x0000 then some (s.memRead a).2
      else State.putString bytes n (a + 1) ((s.memRead a).2.outBytes (bytes (s.memRead a).1)) := rfl

/-- What a walk that ended has done: output appended, characters taken, the keyboard's two cells, and nothing else. -/
theorem putString_frame : ∀ (n : Nat) (a : Word) {s t : State}, State.putString bytes n a s = some t →
    (∃ bs, t.outS = s.outS ++ bs) ∧ (∃ k, t.inQ = s.inQ.drop k) ∧
    (∀ b, b ≠ Config.kbsr → b ≠ Config.kbdr → t.cell b = s.cell b) ∧ (Memory.wf s.mem → Memory.wf t.mem) ∧
    t = { s with mem := t.mem, inQ := t.inQ, outS := t.outS } := by
  intro n
  induction n with
  | zero => intro a s t h; simp [State.putString] at h
  | succ n ih =>
    intro a s t h
    rw [putString_succ] at h
    split at h
    · obtain rfl := Option.some.inj h
      exact ⟨⟨[], by simp⟩, inQ_memRead s a, fun b h1 h2 => cell_memRead s a h1 h2, wf_memRead s a, by
        rw [memRead_frame]⟩
    · obtain ⟨⟨bs, ho⟩, ⟨k, hi⟩, hc, hw, ht⟩ := ih _ h
      obtain ⟨k', hi'⟩ := inQ_memRead s a
      rw [outBytes_eq] at ho hi hc hw ht
      refine ⟨⟨_, by rw [ho]; simp; rfl⟩, ⟨k' + k, by rw [hi]; simp [hi', List.drop_drop]⟩, fun b h1 h2 => ?_,
        fun h => hw (wf_memRead s a h), ?_⟩
      · rw [hc b h1 h2]; exact cell_memRead s a h1 h2
      · rw [ht, memRead_frame]

/-- More fuel changes nothing once the walk has ended. -/
theorem putString_mono : ∀ (n m : Nat) (a : Word) {s t : State}, State.putString bytes n a s = some t → n ≤ m →
    State.putString bytes m a s = some t := by
  intro n
  induction n with
  | zero => intro m a s t h _; simp [State.putString] at h
  | succ n ih =>
    intro m a s t h hm
    obtain ⟨m, rfl⟩ : ∃ k, m = k + 1 := ⟨m - 1, by omega⟩
    rw [putString_succ] at h ⊢
    split at h
    · rwa [if_pos (by assumption)]
    · rw [if_neg (by assumption)]
      exact ih m _ h (by omega)

/-- A walk that has the address space before it once for every pending character and once more ends: at 0xFE00 it
reads zero when nothing is pending and takes a character otherwise. -/
theorem putString_ends : ∀ (n : Nat) (a : Word) (s : State),
    (Config.kbsr - a).toNat + 1 + 65536 * s.inQ.length ≤ n → ∃ t, State.putString bytes n a s = some t := by
  intro n
  induction n with
  | zero => intro a s h; omega
  | succ n ih =>
    intro a s h
    rw [putString_succ]
    split
    · exact ⟨_, rfl⟩
    · next hne =>
      apply ih
      rw [outBytes_eq]
      rcases memRead_cases s a with ⟨ha, e⟩ | ⟨ha, _, e⟩ | ⟨ha, c, rest, hq, e⟩
      · rw [e]
        have hstep : (Config.kbsr - (a + 1)).toNat + 1 = (Config.kbsr - a).toNat := by
          simp only [Config.kbsr] at ha ⊢
          bv_omega
        simp only
        omega
      · rw [e] at hne; exact absurd rfl hne
      · subst ha
        rw [e]
        rw [hq] at h
        simp only [List.length_cons] at h
        have : (Config.kbsr - (Config.kbsr + 1)).toNat = 65535 := by decide
        simp only [inQ_setCell]
        omega

/-- The fuel PUTS and PUTSP are given is always enough (log 24). -/
theorem putString_completes (a : Word) (s : State) : ∃ t, State.putString bytes s.stringFuel a s = some t := by
  apply putString_ends
  have := (Config.kbsr - a).isLt
  simp only [State.stringFuel, Config.memCells]
  omega

/-- What registers, PC and COND hold, and what was output before, make no difference to a walk. -/
theorem putString_congr : ∀ (n : Nat) (a : Word) (s : State) (f : RegFile) (p : Word) (c : Cond),
    State.putString bytes n a { s with regs := f, pc := p, cond := c } =
      (State.putString bytes n a s).map (fun t => { t with regs := f, pc := p, cond := c }) := by
  intro n
  induction n with
  | zero => intros; rfl
  | succ n ih =>
    intro a s f p c
    rw [putString_succ, putString_succ, memRead_congr]
    by_cases h : (s.memRead a).1 = 0x0000
    · rw [if_pos h, if_pos h]; rfl
    · rw [if_neg h, if_neg h, outBytes_eq, outBytes_eq]
      exact ih (a + 1) { (s.memRead a).2 with outS := (s.memRead a).2.outS ++ bytes (s.memRead a).1 } f p c

/-- A service that ends: its next state is the walk's, flushed. -/
theorem putService_eq {s t : State} (h : State.putString bytes s.stringFuel (s.readReg .r0) s = some t) :
    s.putService bytes = .next t.outFlush := by simp [State.putService, h]

/-- PUTS and PUTSP always answer a next state. -/
theorem putService_completes (s : State) :
    ∃ t, State.putString bytes s.stringFuel (s.readReg .r0) s = some t ∧ s.putService bytes = .next t.outFlush := by
  obtain ⟨t, h⟩ := putString_completes bytes (s.readReg .r0) s
  exact ⟨t, h, putService_eq bytes h⟩

end

end Sys2Proof.Machine
end

