-- ==== Sys2Proof/Laws/Exec.lean ====
section
/-! SUPPORT. What the execution of an instruction and a step can do, said once for all instructions: the claims about
the whole machine are derived from these inversions. -/

namespace Sys2Proof.Machine

/-- 40_loop.md R110, of a running machine. -/
theorem step_running {s : State} (h : s.run = .running) : step s = exec (decode s.fetch.1) s.fetch.2 := by
  simp [step, h]

/-- 40_loop.md R113: only a running machine has a step. -/
theorem running_of_step {s t : State} (h : step s = .next t) : s.run = .running := by
  unfold step at h
  split at h
  · assumption
  · simp at h
  · simp at h

/-- What the fetch leaves: MemRead's effect and PC incremented. -/
theorem fetch_eq (s : State) : s.fetch = ((s.memRead s.pc).1, { (s.memRead s.pc).2 with pc := s.pc + 1 }) := by
  simp [State.fetch, State.writePc]

/-- A fetch away from 0xFE00 changes PC alone. -/
theorem fetch_plain {s : State} (h : s.pc ≠ Config.kbsr) : s.fetch = (s.cell s.pc, { s with pc := s.pc + 1 }) := by
  rw [fetch_eq, memRead_plain s h]

/-- How input, output, the flush mark, the run's texts and the memory's form may differ after an execution: bytes are
appended, characters are taken from the front, the mark stays within the output, the texts stay, and canonical memory
stays canonical. -/
structure Progress (s t : State) : Prop where
  output : ∃ bs, t.outS = s.outS ++ bs
  input : ∃ k, t.inQ = s.inQ.drop k
  mark : s.flushed ≤ s.outS.length → t.flushed ≤ t.outS.length
  canonical : Memory.wf s.mem → Memory.wf t.mem
  texts : t.texts = s.texts

theorem Progress.trans {s t u : State} (h : Progress s t) (h' : Progress t u) : Progress s u := by
  obtain ⟨b, hb⟩ := h.output
  obtain ⟨b', hb'⟩ := h'.output
  obtain ⟨k, hk⟩ := h.input
  obtain ⟨k', hk'⟩ := h'.input
  exact ⟨⟨b ++ b', by rw [hb', hb, List.append_assoc]⟩, ⟨k + k', by rw [hk', hk, List.drop_drop]⟩,
    h'.mark ∘ h.mark, h'.canonical ∘ h.canonical, h'.texts.trans h.texts⟩

/-- A change of registers, PC, COND or RUN alone is no progress of the rest. -/
theorem Progress.of_eq {s t : State} (h1 : t.outS = s.outS) (h2 : t.inQ = s.inQ) (h3 : t.flushed = s.flushed)
    (h4 : t.mem = s.mem) (h5 : t.texts = s.texts) : Progress s t :=
  ⟨⟨[], by simp [h1]⟩, ⟨0, by simp [h2]⟩, by simp [h1, h3], fun h => h4 ▸ h, h5⟩

theorem Progress.writeReg (s : State) (r : Reg) (v : Word) : Progress s (s.writeReg r v) := .of_eq rfl rfl rfl rfl rfl

theorem Progress.writePc (s : State) (v : Word) : Progress s (s.writePc v) := .of_eq rfl rfl rfl rfl rfl

theorem Progress.raise (s : State) (k : ExceptionKind) : Progress s (s.raise k) := .of_eq rfl rfl rfl rfl rfl

theorem Progress.memRead (s : State) (a : Word) : Progress s (s.memRead a).2 :=
  ⟨⟨[], by simp⟩, inQ_memRead s a, by simp, wf_memRead s a, by simp⟩

theorem Progress.memWrite (s : State) (a v : Word) : Progress s (s.memWrite a v) :=
  ⟨⟨[], by simp⟩, ⟨0, rfl⟩, by simp, fun h => Memory.wf_write_word a v h, rfl⟩

theorem Progress.outBytes (s : State) (bs : List Byte) : Progress s (s.outBytes bs) := by
  rw [outBytes_eq]
  exact ⟨⟨bs, rfl⟩, ⟨0, rfl⟩, fun h => by simp; omega, fun h => h, rfl⟩

theorem Progress.outFlush (s : State) : Progress s s.outFlush := ⟨⟨[], by simp⟩, ⟨0, rfl⟩, by simp, fun h => h, rfl⟩

theorem Progress.inTake {s t : State} {c : Byte} (h : s.inTake = some (c, t)) : Progress s t := by
  unfold State.inTake at h
  split at h
  · simp at h
  · next d rest hq =>
    simp only [Option.some.injEq, Prod.mk.injEq] at h
    obtain ⟨-, rfl⟩ := h
    exact ⟨⟨[], by simp⟩, ⟨1, by simp [hq]⟩, fun h => h, fun h => h, rfl⟩

theorem Progress.putString {bytes : Word → List Byte} {n : Nat} {a : Word} {s t : State}
    (h : State.putString bytes n a s = some t) : Progress s t := by
  obtain ⟨⟨bs, ho⟩, hi, -, hw, ht⟩ := putString_frame bytes n a h
  refine ⟨⟨bs, ho⟩, hi, fun hm => ?_, hw, by rw [ht]⟩
  have hf : t.flushed = s.flushed := by rw [ht]
  rw [hf, ho, List.length_append]
  omega

theorem Progress.fetch (s : State) : Progress s s.fetch.2 := by
  rw [fetch_eq]
  exact (Progress.memRead s s.pc).trans (.of_eq rfl rfl rfl rfl rfl)

/-- Every instruction makes progress of this kind. -/
theorem Progress.exec {i : Instr} {s t : State} (h : Machine.exec i s = .next t) : Progress s t := by
  cases i with
  | br n z p off9 =>
    obtain rfl := Host.Outcome.next.inj h
    split
    · exact .writePc _ _
    · exact .of_eq rfl rfl rfl rfl rfl
  | addReg dr sr1 sr2 => exact Host.Outcome.next.inj h ▸ .writeReg _ _ _
  | addImm dr sr1 imm5 => exact Host.Outcome.next.inj h ▸ .writeReg _ _ _
  | andReg dr sr1 sr2 => exact Host.Outcome.next.inj h ▸ .writeReg _ _ _
  | andImm dr sr1 imm5 => exact Host.Outcome.next.inj h ▸ .writeReg _ _ _
  | not dr sr1 => exact Host.Outcome.next.inj h ▸ .writeReg _ _ _
  | lea dr off9 => exact Host.Outcome.next.inj h ▸ .writeReg _ _ _
  | jmp baseR => exact Host.Outcome.next.inj h ▸ .writePc _ _
  | jsr off11 => exact Host.Outcome.next.inj h ▸ (Progress.writeReg _ _ _).trans (.writePc _ _)
  | jsrr baseR => exact Host.Outcome.next.inj h ▸ (Progress.writeReg _ _ _).trans (.writePc _ _)
  | ld dr off9 => exact Host.Outcome.next.inj h ▸ (Progress.memRead _ _).trans (.writeReg _ _ _)
  | ldr dr baseR off6 => exact Host.Outcome.next.inj h ▸ (Progress.memRead _ _).trans (.writeReg _ _ _)
  | ldi dr off9 =>
    exact Host.Outcome.next.inj h ▸
      ((Progress.memRead _ _).trans (.memRead _ _)).trans (.writeReg _ _ _)
  | st sr off9 => exact Host.Outcome.next.inj h ▸ .memWrite _ _ _
  | str sr baseR off6 => exact Host.Outcome.next.inj h ▸ .memWrite _ _ _
  | sti sr off9 => exact Host.Outcome.next.inj h ▸ (Progress.memRead _ _).trans (.memWrite _ _ _)
  | rti => exact Host.Outcome.next.inj h ▸ .raise _ _
  | res => exact Host.Outcome.next.inj h ▸ .raise _ _
  | trapUnassigned code => exact Host.Outcome.next.inj h ▸ .raise _ _
  | trapGetc =>
    simp only [Machine.exec, execTrapGetc] at h
    split at h
    · next c u hq => exact Host.Outcome.next.inj h ▸ (Progress.inTake hq).trans (.writeReg _ _ _)
    · simp at h
  | trapOut => exact Host.Outcome.next.inj h ▸ (Progress.outBytes s [_]).trans (.outFlush _)
  | trapPuts =>
    obtain ⟨u, hu, he⟩ := putService_completes putsBytes s
    obtain rfl := Host.Outcome.next.inj (he.symm.trans h)
    exact (Progress.putString hu).trans (.outFlush u)
  | trapPutsp =>
    obtain ⟨u, hu, he⟩ := putService_completes putspBytes s
    obtain rfl := Host.Outcome.next.inj (he.symm.trans h)
    exact (Progress.putString hu).trans (.outFlush u)
  | trapIn =>
    simp only [Machine.exec, execTrapIn] at h
    split at h
    · next c u hq =>
      exact Host.Outcome.next.inj h ▸
        (((Progress.outBytes s _).trans (Progress.inTake hq)).trans (.writeReg _ _ _)).trans (.outFlush _)
    · simp at h
  | trapHalt =>
    exact Host.Outcome.next.inj h ▸
      ((Progress.outBytes s _).trans (.outFlush _)).trans (.of_eq rfl rfl rfl rfl rfl)

end Sys2Proof.Machine
end

