-- ==== Sys2Proof/Laws/Frames.lean ====
section
/-! SUPPORT. The terms of Safety.lean put in the form proofs use: COND from a value, a read's effect, what InTake and the
string services keep, and a sum with a sign-extended field. -/

namespace Sys2Proof.Machine

/-- COND reflects a value exactly when it is the value's flag (10_state.md R22, R23). -/
theorem condReflects_iff {v : Word} {t : State} : CondReflects v t ↔ t.cond = flag v := by
  unfold CondReflects
  rcases flag_cases v with ⟨h, hv⟩ | ⟨h, hv⟩ | ⟨h, hv⟩ <;> rw [h] <;> constructor <;> intro hc
  · exact hc.1.2 hv
  · simp [hc]; omega
  · exact hc.2.1.2 hv
  · simp [hc]; omega
  · exact hc.2.2.2 hv
  · simp [hc]; omega

/-- A read's effect speaks of input and memory alone. -/
theorem ReadEffect.congr {a v : Word} {s s' t t' : State} (h : ReadEffect a v s t) (hi : s'.inQ = s.inQ)
    (hm : s'.mem = s.mem) (hi' : t'.inQ = t.inQ) (hm' : t'.mem = t.mem) : ReadEffect a v s' t' := by
  have hc : ∀ b, s'.cell b = s.cell b := fun b => by simp [State.cell, hm]
  have hc' : ∀ b, t'.cell b = t.cell b := fun b => by simp [State.cell, hm']
  simpa only [ReadEffect, MemKept, MemKeptBut, hi, hi', hc, hc'] using h

/-- The value of a zero-extended byte (00_scope.md R9). -/
@[simp] theorem toNat_zext (b : Byte) : (zext b).toNat = b.toNat := by
  have := b.isLt
  simp only [zext, BitVec.toNat_setWidth]
  omega

/-- InTake takes the front of the input and touches nothing else. -/
theorem inTake_frame {s t : State} {c : Byte} (h : s.inTake = some (c, t)) :
    s.inQ = c :: t.inQ ∧ t = { s with inQ := t.inQ } := by
  cases hq : s.inQ with
  | nil => simp [inTake_nil hq] at h
  | cons d rest =>
    rw [inTake_cons hq] at h
    obtain ⟨rfl, rfl⟩ := Prod.mk.inj (Option.some.inj h)
    exact ⟨rfl, rfl⟩

/-- A string service: its end, what it may have changed, and what it keeps (44_trap.md R158, R160). -/
theorem putService_frame (bytes : Word → List Byte) {s t : State} (h : s.putService bytes = .next t) :
    (∃ bs, t.outS = s.outS ++ bs) ∧ (∃ k, t.inQ = s.inQ.drop k) ∧
    (∀ b, b ≠ Config.kbsr → b ≠ Config.kbdr → t.cell b = s.cell b) ∧ t.flushed = t.outS.length ∧
    t = { s with mem := t.mem, inQ := t.inQ, outS := t.outS, flushed := t.flushed } := by
  obtain ⟨u, hu, he⟩ := putService_completes bytes s
  obtain rfl := Host.Outcome.next.inj (he.symm.trans h)
  obtain ⟨ho, hi, hc, -, ht⟩ := putString_frame bytes _ _ hu
  refine ⟨ho, hi, hc, rfl, ?_⟩
  rw [ht]
  rfl

/-- A word plus a sign-extended field, in integers modulo 65536 (00_scope.md R8, R9). -/
theorem toNat_add_sext {n : Nat} (p : Word) (x : BitVec n) (h1 : 1 ≤ n) (h15 : n ≤ 15) :
    ((p + sext n x).toNat : Int) = (p.toNat + x.toInt) % 65536 := by
  have h := toInt_sext x h1 h15
  have h2 := BitVec.toInt_eq_toNat_cond (sext n x)
  have h3 := (sext n x).isLt
  have h4 := p.isLt
  rw [← h, h2, BitVec.toNat_add]
  split <;> omega

/-! ### Runs (70_reset_and_hazards.md R222) -/

/-- A machine that has stopped has ended its run, whatever moves are left. -/
theorem run_stopped {s : State} (h : s.run ≠ .running) (ms : List Move) : run ms s = s.runEnd := by
  cases ms with
  | nil => rfl
  | cons m ms => simp [run, h]

/-- A running machine: one move of the run. -/
theorem run_cons_next {s t : State} {m : Move} (h : s.run = .running) (hm : move m s = .next t) (ms : List Move) :
    run (m :: ms) s = run ms t := by simp [run, h, hm]

/-- What a move that has a next state is. -/
theorem move_cases {m : Move} {s t : State} (h : move m s = .next t) :
    (m = .step ∧ step s = .next t) ∨ ∃ cs, m = .arrive cs ∧ t = s.arrive cs := by
  cases m with
  | step =>
    simp only [move] at h
    split at h
    · next u hu => exact .inl ⟨rfl, hu.trans (congrArg _ (Host.Outcome.next.inj h))⟩
    · simp at h
    · simp at h
  | arrive cs => exact .inr ⟨cs, rfl, (Host.Outcome.next.inj h).symm⟩
  | terminate =>
    simp only [move] at h
    split at h <;> simp at h

/-- The end a state shows, by its RUN. -/
theorem runEnd_halted_iff {s t : State} : s.runEnd = .halted t ↔ s.run = .halted ∧ s = t := by
  unfold State.runEnd
  split <;> simp_all

theorem runEnd_faulted_iff {s t : State} {k : ExceptionKind} :
    s.runEnd = .faulted k t ↔ s.run = .faulted k ∧ s = t := by
  unfold State.runEnd
  split <;> simp_all

end Sys2Proof.Machine
end

