-- ==== Sys2Proof/Laws/PerInstr.lean ====
section
/-! SUPPORT. The statements made of every instruction, one lemma for each constructor. -/

namespace Sys2Proof.Laws.RoundTrip

/-- Decoding the encoding of a well-formed instruction gives it back (30_encoding.md R83, R86, R87). -/
def Statement (i : Instr) : Prop := i.wf = true → decode (encode i) = i

theorem br (n z p : Bool) (off9 : BitVec 9) : Statement (.br n z p off9) := fun _ => by
  have hw : (encode (.br n z p off9)).toNat =
      ((((Opcode.toBits .br).toNat * 2 + n.toNat) * 2 + z.toNat) * 2 + p.toNat) * 512 + off9.toNat := by
    show BitVec.toNat (w := 4 + 1 + 1 + 1 + 9) (_ ++ _ ++ _ ++ _ ++ _) = _
    simp only [toNat_append_add, BitVec.toNat_ofBool]
    rfl
  obtain ⟨h, hn, hz, hp, ho⟩ := fields_br hw
  simp only [decode, h, hn, hz, hp, ho, Opcode.ofBits_toBits]

/-- The word of format PC9. -/
theorem toNat_pc9 (op : Opcode) (r : Reg) (o : BitVec 9) :
    BitVec.toNat (w := 4 + 3 + 9) (op.toBits ++ r.toBits ++ o) =
      (op.toBits.toNat * 8 + r.toBits.toNat) * 512 + o.toNat := by
  simp only [toNat_append_add]
  rfl

/-- The word of formats B6, UN, JR, JSRR. -/
theorem toNat_b6 (op : Opcode) (a b : BitVec 3) (o : BitVec 6) :
    BitVec.toNat (w := 4 + 3 + 3 + 6) (op.toBits ++ a ++ b ++ o) =
      ((op.toBits.toNat * 8 + a.toNat) * 8 + b.toNat) * 64 + o.toNat := by
  simp only [toNat_append_add]
  rfl

/-- The word of format OPR. -/
theorem toNat_opr (op : Opcode) (a b c : Reg) :
    BitVec.toNat (w := 4 + 3 + 3 + 3 + 3) (op.toBits ++ a.toBits ++ b.toBits ++ 0b000#3 ++ c.toBits) =
      (((op.toBits.toNat * 8 + a.toBits.toNat) * 8 + b.toBits.toNat) * 8) * 8 + c.toBits.toNat := by
  simp only [toNat_append_add]
  rfl

/-- The word of format OPI. -/
theorem toNat_opi (op : Opcode) (a b : Reg) (i : BitVec 5) :
    BitVec.toNat (w := 4 + 3 + 3 + 1 + 5) (op.toBits ++ a.toBits ++ b.toBits ++ 1#1 ++ i) =
      (((op.toBits.toNat * 8 + a.toBits.toNat) * 8 + b.toBits.toNat) * 2 + 1) * 32 + i.toNat := by
  simp only [toNat_append_add]
  rfl

theorem addReg (dr sr1 sr2 : Reg) : Statement (.addReg dr sr1 sr2) := fun _ => by
  obtain ⟨h, ha, hb, hc, hi⟩ := fields_opr (w := encode (.addReg dr sr1 sr2)) (toNat_opr .add dr sr1 sr2)
  simp only [decode, h, regA, regB, regC, ha, hb, hc, hi, Opcode.ofBits_toBits, Reg.ofBits_toBits,
    Bool.false_eq_true, if_false]

theorem addImm (dr sr1 : Reg) (imm5 : BitVec 5) : Statement (.addImm dr sr1 imm5) := fun _ => by
  obtain ⟨h, ha, hb, hc, hi⟩ := fields_opi (w := encode (.addImm dr sr1 imm5)) (toNat_opi .add dr sr1 imm5)
  simp [decode, h, regA, regB, ha, hb, hc, hi]

theorem andReg (dr sr1 sr2 : Reg) : Statement (.andReg dr sr1 sr2) := fun _ => by
  obtain ⟨h, ha, hb, hc, hi⟩ := fields_opr (w := encode (.andReg dr sr1 sr2)) (toNat_opr .and dr sr1 sr2)
  simp only [decode, h, regA, regB, regC, ha, hb, hc, hi, Opcode.ofBits_toBits, Reg.ofBits_toBits,
    Bool.false_eq_true, if_false]

theorem andImm (dr sr1 : Reg) (imm5 : BitVec 5) : Statement (.andImm dr sr1 imm5) := fun _ => by
  obtain ⟨h, ha, hb, hc, hi⟩ := fields_opi (w := encode (.andImm dr sr1 imm5)) (toNat_opi .and dr sr1 imm5)
  simp [decode, h, regA, regB, ha, hb, hc, hi]

theorem ld (dr : Reg) (off9 : BitVec 9) : Statement (.ld dr off9) := fun _ => by
  obtain ⟨h, ha, ho⟩ := fields_pc9 (w := encode (.ld dr off9)) (toNat_pc9 .ld dr off9)
  simp [decode, h, regA, ha, ho]

theorem ldi (dr : Reg) (off9 : BitVec 9) : Statement (.ldi dr off9) := fun _ => by
  obtain ⟨h, ha, ho⟩ := fields_pc9 (w := encode (.ldi dr off9)) (toNat_pc9 .ldi dr off9)
  simp [decode, h, regA, ha, ho]

theorem lea (dr : Reg) (off9 : BitVec 9) : Statement (.lea dr off9) := fun _ => by
  obtain ⟨h, ha, ho⟩ := fields_pc9 (w := encode (.lea dr off9)) (toNat_pc9 .lea dr off9)
  simp [decode, h, regA, ha, ho]

theorem st (sr : Reg) (off9 : BitVec 9) : Statement (.st sr off9) := fun _ => by
  obtain ⟨h, ha, ho⟩ := fields_pc9 (w := encode (.st sr off9)) (toNat_pc9 .st sr off9)
  simp [decode, h, regA, ha, ho]

theorem sti (sr : Reg) (off9 : BitVec 9) : Statement (.sti sr off9) := fun _ => by
  obtain ⟨h, ha, ho⟩ := fields_pc9 (w := encode (.sti sr off9)) (toNat_pc9 .sti sr off9)
  simp [decode, h, regA, ha, ho]

theorem ldr (dr baseR : Reg) (off6 : BitVec 6) : Statement (.ldr dr baseR off6) := fun _ => by
  obtain ⟨h, ha, hb, ho⟩ :=
    fields_b6 (w := encode (.ldr dr baseR off6)) (toNat_b6 .ldr dr.toBits baseR.toBits off6)
  simp [decode, h, regA, regB, ha, hb, ho]

theorem str (sr baseR : Reg) (off6 : BitVec 6) : Statement (.str sr baseR off6) := fun _ => by
  obtain ⟨h, ha, hb, ho⟩ :=
    fields_b6 (w := encode (.str sr baseR off6)) (toNat_b6 .str sr.toBits baseR.toBits off6)
  simp [decode, h, regA, regB, ha, hb, ho]

theorem not (dr sr1 : Reg) : Statement (.not dr sr1) := fun _ => by
  obtain ⟨h, ha, hb, _⟩ := fields_b6 (w := encode (.not dr sr1)) (toNat_b6 .not dr.toBits sr1.toBits 0b111111#6)
  simp [decode, h, regA, regB, ha, hb]

theorem jmp (baseR : Reg) : Statement (.jmp baseR) := fun _ => by
  obtain ⟨h, _, hb, _⟩ := fields_b6 (w := encode (.jmp baseR)) (toNat_b6 .jmp 0b000#3 baseR.toBits 0b000000#6)
  simp [decode, h, regB, hb]

theorem jsrr (baseR : Reg) : Statement (.jsrr baseR) := fun _ => by
  have hw : (encode (.jsrr baseR)).toNat = _ := toNat_b6 .jsr 0b000#3 baseR.toBits 0b000000#6
  obtain ⟨h, _, hb, _⟩ := fields_b6 hw
  simp only [decode, h, regB, hb, longFlag_b6 hw (by decide), Opcode.ofBits_toBits, Reg.ofBits_toBits,
    Bool.false_eq_true, if_false]

theorem jsr (off11 : BitVec 11) : Statement (.jsr off11) := fun _ => by
  obtain ⟨h, hl, ho⟩ := fields_js (w := encode (.jsr off11)) (op := Opcode.toBits .jsr) (o := off11) (by
    show BitVec.toNat (w := 4 + 1 + 11) (_ ++ _ ++ _) = _
    simp only [toNat_append_add]; rfl)
  simp [decode, h, hl, ho]

theorem rti : Statement .rti := fun _ => by decide

theorem res : Statement .res := fun _ => by decide

theorem trapGetc : Statement .trapGetc := fun _ => decode_encodeTrap 0x20

theorem trapOut : Statement .trapOut := fun _ => decode_encodeTrap 0x21

theorem trapPuts : Statement .trapPuts := fun _ => decode_encodeTrap 0x22

theorem trapIn : Statement .trapIn := fun _ => decode_encodeTrap 0x23

theorem trapPutsp : Statement .trapPutsp := fun _ => decode_encodeTrap 0x24

theorem trapHalt : Statement .trapHalt := fun _ => decode_encodeTrap 0x25

theorem trapUnassigned (code : Byte) : Statement (.trapUnassigned code) := fun h =>
  (decode_encodeTrap code).trans (decodeTrap_unassigned (by simpa [Instr.wf] using h))

end Sys2Proof.Laws.RoundTrip
end

