-- ==== Sys2Proof/Tests/Slice0.lean ====
section
/-! SUPPORT. Tests: words and steps whose results are those of spec/95_test_vectors.md (the vector's id is in each name
or docstring), what WellFormed refuses, and for every statement with hypotheses a concrete witness that meets them. -/

namespace Sys2Proof.Tests
open Sys2Proof.Machine

/-! ### Helpers -/

/-- What a field of the next state is, where there is one. -/
def after {α : Type} (o : Host.Outcome State Fault Refusal) (f : State → α) : Option α :=
  match o with
  | .next t => some (f t)
  | .fault _ => none
  | .refused _ => none

/-- The default reset state with a PC, COND, registers, cells and input of its own. -/
def machine (pc : Word) (cond : Cond) (regs : List (Reg × Word)) (cells : List (Word × Word)) (inQ : List Byte) : State :=
  cells.foldl (fun s c => s.setCell c.1 c.2)
    { State.reset with
      pc := pc, cond := cond, inQ := inQ, regs := regs.foldl (fun f r => f.set r.1 r.2) State.reset.regs }

/-- The same with one instruction word at PC 0x3000. -/
def at3000 (word : Word) (cond : Cond) (regs : List (Reg × Word)) (cells : List (Word × Word)) (inQ : List Byte) :
    State := machine 0x3000 cond regs ((0x3000, word) :: cells) inQ

/-- One register, COND and PC of a state. -/
def regCondPc (r : Reg) (t : State) : Word × Cond × Word := (t.readReg r, t.cond, t.pc)

/-! ### WellFormed -/

theorem test_wf_unassigned : Instr.wf (.trapUnassigned 0x1F) = true ∧ Instr.wf (.trapUnassigned 0x26) = true := by
  decide
theorem test_wf_refuses_first_service : Instr.wf (.trapUnassigned 0x20) = false := by decide
theorem test_wf_refuses_last_service : Instr.wf (.trapUnassigned 0x25) = false := by decide
theorem test_wf_others : Instr.wf (.br true false true 0x1FF) = true ∧ Instr.wf .rti = true := by decide

/-! ### Decoding: one word for each constructor, from the binary columns and vectors of the spec -/

theorem test_decode_br : decode 0b0000001111111101 = .br false false true 0x1FD := by decide
theorem test_decode_add_reg : decode 0b0001000001000010 = .addReg .r0 .r1 .r2 := by decide
theorem test_decode_add_imm : decode 0b0001000000111111 = .addImm .r0 .r0 0x1F := by decide
theorem test_decode_ld : decode 0b0010000000000001 = .ld .r0 1 := by decide
theorem test_decode_st : decode 0b0011000000000001 = .st .r0 1 := by decide
theorem test_decode_jsrr : decode 0b0100000011000000 = .jsrr .r3 := by decide
theorem test_decode_jsr : decode 0b0100100000000100 = .jsr 4 := by decide
theorem test_decode_and_reg : decode 0b0101000001000010 = .andReg .r0 .r1 .r2 := by decide
theorem test_decode_and_imm : decode 0b0101011011100000 = .andImm .r3 .r3 0 := by decide
theorem test_decode_ldr : decode 0b0110011001000001 = .ldr .r3 .r1 1 := by decide
theorem test_decode_str : decode 0b0111100001000010 = .str .r4 .r1 2 := by decide
theorem test_decode_rti : decode 0b1000000000000000 = .rti := by decide
theorem test_decode_not : decode 0b1001000001111111 = .not .r0 .r1 := by decide
theorem test_decode_ldi : decode 0b1010000000000101 = .ldi .r0 5 := by decide
theorem test_decode_sti : decode 0b1011101000001000 = .sti .r5 8 := by decide
theorem test_decode_jmp : decode 0b1100000111000000 = .jmp .r7 := by decide
theorem test_decode_res : decode 0b1101000000000000 = .res := by decide
theorem test_decode_lea : decode 0b1110000000001010 = .lea .r0 10 := by decide
theorem test_decode_getc : decode 0b1111000000100000 = .trapGetc := by decide
theorem test_decode_out : decode 0b1111000000100001 = .trapOut := by decide
theorem test_decode_puts : decode 0b1111000000100010 = .trapPuts := by decide
theorem test_decode_in : decode 0b1111000000100011 = .trapIn := by decide
theorem test_decode_putsp : decode 0b1111000000100100 = .trapPutsp := by decide
theorem test_decode_halt : decode 0b1111000000100101 = .trapHalt := by decide
theorem test_decode_unassigned : decode 0b1111000000100110 = .trapUnassigned 0x26 := by decide

/-- A4, A16, B8, T5, X2: words that differ in ignored bits only. -/
theorem test_decode_ignored_bits : decode 0x105A = .addReg .r0 .r1 .r2 ∧ decode 0x9040 = .not .r0 .r1 ∧
    decode 0xCEBF = .jmp .r2 ∧ decode 0xFF20 = .trapGetc ∧ decode 0x8ABC = .rti := by decide

/-- The spec's words from the instructions its assembly column gives. -/
theorem test_encode : encode (.addReg .r1 .r1 .r1) = 0x1241 ∧ encode (.not .r3 .r3) = 0x96FF ∧
    encode (.br true true true 0x1FE) = 0x0FFE ∧ encode (.jsr 0x400) = 0x4C00 ∧ encode (.jsrr .r7) = 0x41C0 ∧
    encode (.str .r1 .r1 0x3F) = 0x727F ∧ encode .trapHalt = 0xF025 := by decide

theorem test_table_size : opcodeTable.length = 30 := by decide
theorem test_table_word : decodeTableWord 16 0x1042 = some (.addReg .r0 .r1 .r2) := by decide
theorem test_table_word_too_long : decodeTableWord 24 0x1042 = none := by decide

/-! ### Extension and flags -/

/-- S1a. -/
theorem test_sext : sext 5 0x1F = 0xFFFF ∧ sext 5 0x0F = 0x000F ∧ sext 6 0x20 = 0xFFE0 ∧ sext 9 0x100 = 0xFF00 ∧
    sext 11 0x3FF = 0x03FF ∧ sext 11 0x400 = 0xFC00 := by decide

/-! ### One step of each instruction -/

/-- A1. -/
theorem test_add_reg : after (step (at3000 0x1042 .z [(.r1, 0x7FFF), (.r2, 1)] [] [])) (regCondPc .r0) =
    some (0x8000, .n, 0x3001) := by decide
/-- S2a: ADD wraps. -/
theorem test_add_imm : after (step (at3000 0x1021 .p [(.r0, 0xFFFF)] [] [])) (regCondPc .r0) =
    some (0x0000, .z, 0x3001) := by decide
/-- A9. -/
theorem test_and_reg : after (step (at3000 0x5042 .p [(.r1, 0x0F0F), (.r2, 0xF0F0)] [] [])) (regCondPc .r0) =
    some (0x0000, .z, 0x3001) := by decide
/-- A11. -/
theorem test_and_imm : after (step (at3000 0x5030 .z [(.r0, 0xFFFF)] [] [])) (regCondPc .r0) =
    some (0xFFF0, .n, 0x3001) := by decide
/-- A17. -/
theorem test_not : after (step (at3000 0x96FF .z [(.r3, 0x7FFF)] [] [])) (regCondPc .r3) =
    some (0x8000, .n, 0x3001) := by decide
/-- B2. -/
theorem test_br_taken : after (step (at3000 0x0500 .z [] [] [])) (regCondPc .r0) = some (0, .z, 0x2F01) := by decide
/-- The table of 2.2: word 0A10 (n and p) with COND = Z. -/
theorem test_br_not_taken : after (step (at3000 0x0A10 .z [] [] [])) (regCondPc .r0) = some (0, .z, 0x3001) := by decide
/-- B7. -/
theorem test_jmp : after (step (at3000 0xC080 .n [(.r2, 0x4000)] [] [])) (regCondPc .r2) =
    some (0x4000, .n, 0x4000) := by decide
/-- B10. -/
theorem test_jsr : after (step (at3000 0x4C00 .z [] [] [])) (regCondPc .r7) = some (0x3001, .p, 0x2C01) := by decide
/-- B14: the return address wraps and sets Z. -/
theorem test_jsr_wraps : after (step (machine 0xFFFF .p [(.r7, 0x1111)] [(0xFFFF, 0x4800)] [])) (regCondPc .r7) =
    some (0x0000, .z, 0x0000) := by decide
/-- B17. -/
theorem test_jsrr : after (step (machine 0x8000 .z [(.r3, 0x0010)] [(0x8000, 0x40C0)] [])) (regCondPc .r7) =
    some (0x8001, .n, 0x0010) := by decide
/-- B16: JSRR R7 falls through. -/
theorem test_jsrr_r7 : after (step (machine 0x3010 .z [(.r7, 0x5000)] [(0x3010, 0x41C0)] [])) (regCondPc .r7) =
    some (0x3011, .p, 0x3011) := by decide
/-- M3. -/
theorem test_ld : after (step (at3000 0x2300 .p [(.r1, 0x5555)] [] [])) (regCondPc .r1) =
    some (0x0000, .z, 0x3001) := by decide
/-- S4a: the offset counts from the incremented PC. -/
theorem test_ld_incremented_pc : after (step (at3000 0x2001 .z [] [(0x3001, 0x1111), (0x3002, 0xBEEF)] []))
    (regCondPc .r0) = some (0xBEEF, .n, 0x3001) := by decide
/-- M5. -/
theorem test_ldi : after (step (at3000 0xA005 .z [] [(0x3006, 0x4000), (0x4000, 0x0007)] [])) (regCondPc .r0) =
    some (0x0007, .p, 0x3001) := by decide
/-- K2: LDI through 0xFE00 polls. -/
theorem test_ldi_polls : after (step (at3000 0xA005 .z [] [(0x3006, 0xFE00)] [0x61, 0x62]))
    (fun t => (t.readReg .r0, t.cell 0xFE00, t.cell 0xFE02, t.inQ)) = some (0x8000, 0x8000, 0x0061, [0x62]) := by decide
/-- M8. -/
theorem test_ldr : after (step (at3000 0x6660 .z [(.r1, 0x0010)] [(0xFFF0, 0x8000)] [])) (regCondPc .r3) =
    some (0x8000, .n, 0x3001) := by decide
/-- M9: the base is overwritten after its use. -/
theorem test_ldr_base_is_destination : after (step (at3000 0x625F .z [(.r1, 0xFFF0)] [(0x000F, 1)] []))
    (regCondPc .r1) = some (0x0001, .p, 0x3001) := by decide
/-- M11. -/
theorem test_lea : after (step (at3000 0xE1FF .z [] [] [])) (regCondPc .r0) = some (0x3000, .p, 0x3001) := by decide
/-- M15: a store over its own word. -/
theorem test_st : after (step (at3000 0x31FF .z [(.r0, 0xABCD)] [] [])) (fun t => (t.cell 0x3000, t.pc)) =
    some (0xABCD, 0x3001) := by decide
/-- M16: a store to 0xFE00 is plain. -/
theorem test_st_kbsr : after (step (machine 0xFDFF .z [(.r0, 0x1234)] [(0xFDFF, 0x3000)] [0x71]))
    (fun t => (t.cell 0xFE00, t.inQ, t.pc)) = some (0x1234, [0x71], 0xFE00) := by decide
/-- M17. -/
theorem test_sti : after (step (machine 0x3009 .z [(.r5, 0x8000)] [(0x3009, 0xBA08), (0x3012, 0x4000)] []))
    (fun t => (t.cell 0x4000, t.cell 0x3012, t.cond)) = some (0x8000, 0x4000, .z) := by decide
/-- M18: the pointer cell points at itself. -/
theorem test_sti_self : after (step (at3000 0xBA00 .z [(.r5, 0x00AA)] [(0x3001, 0x3001)] []))
    (fun t => t.cell 0x3001) = some 0x00AA := by decide
/-- M19. -/
theorem test_str : after (step (at3000 0x7842 .z [(.r1, 0x300E), (.r4, 0x8000)] [] []))
    (fun t => (t.cell 0x3010, t.cond)) = some (0x8000, .z) := by decide
/-- M20. -/
theorem test_str_wraps : after (step (at3000 0x727F .z [] [(0xFFFF, 0x7777)] [])) (fun t => t.cell 0xFFFF) =
    some 0x0000 := by decide
/-- T3. -/
theorem test_getc : after (step (at3000 0xF020 .n [] [] [0xFF])) (fun t => (t.readReg .r0, t.cond, t.inQ, t.outS)) =
    some (0x00FF, .p, [], []) := by decide
/-- T4: nothing pending, no step. -/
theorem test_getc_waits : step (at3000 0xF020 .n [] [] []) = .fault .waitingForInput := rfl
/-- T6. -/
theorem test_out : after (step (at3000 0xF021 .z [(.r0, 0x0141)] [] [])) (fun t => (t.outS, t.readReg .r0)) =
    some ([0x41], 0x0141) := by decide
/-- T10. -/
theorem test_puts : after (step (at3000 0xF022 .z [(.r0, 0x4000)] [(0x4000, 0x0100), (0x4001, 0x4142)] []))
    (fun t => (t.outS, t.readReg .r0)) = some ([0x00, 0x42], 0x4000) := by decide
/-- T13: the walk reads 0xFE00 and then the character it latched. -/
theorem test_puts_polls : after (step (at3000 0xF022 .z [(.r0, 0xFDFF)]
    [(0xFDFF, 0x0041), (0xFE00, 0x0055), (0xFE01, 0x0043)] [0x6B]))
    (fun t => (t.outS, t.cell 0xFE00, t.cell 0xFE02)) = some ([0x41, 0x00, 0x43, 0x6B], 0x8000, 0x006B) := by decide
/-- T14. -/
theorem test_in : after (step (at3000 0xF023 .z [] [] [0x79])) (regCondPc .r0) = some (0x0079, .p, 0x3001) := by decide
/-- T14: the prompt and no echo. -/
theorem test_in_output : after (step (at3000 0xF023 .z [] [] [0x79])) State.outS = some Config.inPromptDefault := by decide
/-- T17. -/
theorem test_putsp : after (step (at3000 0xF024 .z [(.r0, 0x4000)] [(0x4000, 0x4100), (0x4001, 0x4342)] []))
    State.outS = some [0x00, 0x41, 0x42, 0x43] := by decide
/-- T16: a zero high byte is not written. -/
theorem test_putsp_skips : after (step (at3000 0xF024 .z [(.r0, 0x4000)] [(0x4000, 0x6548), (0x4001, 0x0079)] []))
    State.outS = some [0x48, 0x65, 0x79] := by decide
/-- S6a, T18. -/
theorem test_halt : after (step (machine 0x3007 .p [] [(0x3007, 0xF025), (0x3008, 0x1021)] []))
    (fun t => (t.run, t.pc, t.cond)) = some (.halted, 0x3008, .p) := by decide
/-- T18: the halt indication. -/
theorem test_halt_output : after (step (at3000 0xF025 .p [] [] [])) State.outS = some Config.haltMsgDefault := by decide
/-- T19. -/
theorem test_trap_unassigned : after (step (at3000 0xF026 .z [] [] [])) (fun t => (t.run, t.pc)) =
    some (.faulted .invalidTrapCode, 0x3001) := by decide
/-- X2. -/
theorem test_rti : after (step (at3000 0x8ABC .p [(.r1, 1)] [] [])) (fun t => (t.run, t.pc, t.readReg .r1, t.cond)) =
    some (.faulted .invalidOpcode, 0x3001, 0x0001, .p) := by decide
/-- X4. -/
theorem test_res : after (step (at3000 0xDFFF .z [] [] [])) (fun t => (t.run, t.pc)) =
    some (.faulted .invalidOpcode, 0x3001) := by decide
/-- K5: a fetch from 0xFE00 with nothing pending. -/
theorem test_fetch_polls : after (step (machine 0xFE00 .z [] [(0xFE00, 0x1021)] []))
    (fun t => (t.pc, t.run, t.cell 0xFE00, t.readReg .r0)) = some (0xFE01, .running, 0x0000, 0x0000) := by decide

/-! ### Loading (L1, L2, L4, L7, S5a) -/

/-- L1 and S5a. -/
theorem test_load : (State.bootFiles .default [[0x30, 0x00, 0x12, 0x34, 0x56, 0x78]]).map
    (fun s => (s.cell 0x3000, s.cell 0x3001, s.pc)) = some (0x1234, 0x5678, 0x3000) := by decide
/-- L2: words past 0xFFFF are dropped. -/
theorem test_load_end : (State.bootFiles .default [[0xFF, 0xFE, 0x00, 0x01, 0x00, 0x02, 0x00, 0x03]]).map
    (fun s => (s.cell 0xFFFE, s.cell 0xFFFF, s.cell 0x0000)) = some (1, 2, 0) := by decide
/-- L4: a later image overwrites. -/
theorem test_load_order : (State.bootFiles .default [[0x30, 0x00, 0x11, 0x11, 0x22, 0x22], [0x30, 0x01, 0x33, 0x33]]).map
    (fun s => (s.cell 0x3000, s.cell 0x3001)) = some (0x1111, 0x3333) := by decide
/-- L7: an odd length is refused. -/
theorem test_load_odd : State.bootFiles .default [[0x30, 0x00, 0x12]] = none := by decide
/-- R216: no image, no run. -/
theorem test_load_none : State.bootFiles .default [] = none := by decide
/-- The host's placement of a word: the next step runs it. -/
theorem test_with_fetch_word : after (step (State.reset.withFetchWord 16 0x1021)) (regCondPc .r0) =
    some (0x0001, .p, 0x3001) := by decide
/-- R185: the host's end of the run. -/
theorem test_terminate : run [.arrive [0x61], .terminate, .step] State.reset = .terminated := by decide
/-- S8a, R222 b: a run that faults ends there and is no safe run, whatever moves are left. -/
theorem test_run_faults : run [.step, .step, .step, .terminate] (machine 0x3000 .z [] [(0x3000, 0x1021), (0x3001, 0xD000)] [])
    = .faulted .invalidOpcode { machine 0x3000 .p [(.r0, 1)] [(0x3000, 0x1021), (0x3001, 0xD000)] [] with
        pc := 0x3002, run := .faulted .invalidOpcode } := by decide
/-- R222 a: a termination request after HALT does not change how the run ended. -/
theorem test_run_halts : (run [.step, .terminate] (at3000 0xF025 .z [] [] [])) =
    .halted { at3000 0xF025 .z [] [] [] with
      pc := 0x3001, run := .halted, outS := Config.haltMsgDefault, flushed := 5 } := by decide
/-- R223 a, T4: a wait for input is no end of the run. -/
theorem test_run_waits : run [.step, .arrive [0x61], .step, .terminate] (at3000 0xF020 .z [] [] []) = .terminated := by
  decide
/-- R6: the defaults are the ASCII bytes of the spec's texts. -/
theorem test_default_texts :
    Config.inPromptDefault = "Enter a character: ".toList.map (fun c => BitVec.ofNat 8 c.toNat) ∧
    Config.haltMsgDefault = "HALT\n".toList.map (fun c => BitVec.ofNat 8 c.toNat) := by decide
/-- R159's example: IN_PROMPT = "? " and IN_Q = 'y'. -/
theorem test_prompt_is_an_argument :
    after (exec .trapIn (State.boot { BootParams.default with
      inQ := [0x79], texts := { RunTexts.default with inPrompt := [0x3F, 0x20] } } [])) (fun t => (t.outS, t.readReg .r0)) =
    some ([0x3F, 0x20], 0x0079) := by decide

/-! ### Witnesses: for every statement with hypotheses, states and operands that meet them -/

theorem witness_DecodeOfEncode : Instr.wf (.trapUnassigned 0xFF) = true ∧ Instr.wf (.jsr 0x7FF) = true := by decide

theorem witness_DecodeIgnoresOtherBits : (0x0E3F : Word) &&& ignoredMask (decode 0xC080) = 0x0E3F ∧
    decode (0xC080 ^^^ 0x0E3F) = .jmp .r2 := by decide

/-- The smallest and the largest width, on both sides of the sign. -/
theorem witness_SignAndZeroExtension : sext 1 1 = 0xFFFF ∧ sext 1 0 = 0 ∧ sext 15 0x4000 = 0xC000 ∧
    sext 15 0x3FFF = 0x3FFF ∧ (1 ≤ 1 ∧ 1 ≤ 15) ∧ (1 ≤ 15 ∧ 15 ≤ 15) := by decide

theorem witness_EveryRegisterWriteSetsCond : regWritten (.addImm .r2 .r2 1) = some .r2 ∧
    ∃ t, exec (.addImm .r2 .r2 1) State.reset = .next t ∧ t.readReg .r2 ≠ State.reset.readReg .r2 :=
  ⟨rfl, _, rfl, by decide⟩

/-- Both cases: an instruction that writes a register and one that writes none. -/
theorem witness_RegistersWrittenPerInstruction :
    (∃ t, exec (.jsr 0) State.reset = .next t ∧ regWritten (.jsr 0) = some .r7) ∧
    (∃ t, exec (.st .r0 0) State.reset = .next t ∧ regWritten (.st .r0 0) = none) := ⟨⟨_, rfl, rfl⟩, ⟨_, rfl, rfl⟩⟩

theorem witness_CondReadOnlyByBr : (∀ n z p off, Instr.lea .r0 0 ≠ .br n z p off) ∧
    ∃ t, exec (.lea .r0 0) State.reset = .next t := ⟨by simp, _, rfl⟩

theorem witness_KbsrReadTwice : (at3000 0 .z [] [] [0xFF]).inQ = [0xFF] := rfl

/-- Both cases of the effect: the poll and the plain read beside it. -/
theorem witness_MemReadEffect : ((at3000 0 .z [] [] [0x61]).memRead 0xFE00).1 = 0x8000 ∧
    ((at3000 0 .z [] [] []).memRead 0xFE00).1 = 0x0000 ∧
    ((at3000 0 .z [] [(0xFE01, 7)] [0x61]).memRead 0xFE01).1 = 7 := by decide

theorem witness_CanonicalMemoriesAreEqual : Memory.wf (Memory.write [] 0xFFFF 1) ∧
    Memory.wf ((Memory.write [] 0 5).write 0xFFFF 1 |>.write 0 0) ∧
    Memory.write [] 0xFFFF 1 = ((Memory.write [] 0 5).write 0xFFFF 1 |>.write 0 0) := by decide

theorem witness_StepRunsDecodedInstruction : (at3000 0xC080 .z [] [] []).run = .running ∧
    (at3000 0xC080 .z [] [] []).pc ≠ Config.kbsr ∧
    decode ((at3000 0xC080 .z [] [] []).cell (at3000 0xC080 .z [] [] []).pc) = .jmp .r2 := by decide

/-- Both clauses: nothing pending, and a character pending. -/
theorem witness_FetchFromKbsrPolls :
    ((machine 0xFE00 .z [] [] []).run = .running ∧ (machine 0xFE00 .z [] [] []).pc = Config.kbsr ∧
      (machine 0xFE00 .z [] [] []).inQ = []) ∧
    ((machine 0xFE00 .z [] [] [0x6B]).run = .running ∧ (machine 0xFE00 .z [] [] [0x6B]).pc = Config.kbsr ∧
      (machine 0xFE00 .z [] [] [0x6B]).inQ ≠ []) := by decide

theorem witness_NoStepUnlessRunning : step { State.reset with run := .halted } = .fault .halted ∧
    step { State.reset with run := .faulted .invalidTrapCode } = .fault (.faulted .invalidTrapCode) ∧
    ∃ t, step State.reset = .next t := ⟨rfl, rfl, _, rfl⟩

/-- Each way out of RUNNING, and a step that stays in it. -/
theorem witness_LeavingRunning :
    (∃ t, step (at3000 0xF025 .z [] [] []) = .next t ∧ t.run = .halted) ∧
    (∃ t, step (at3000 0xD000 .z [] [] []) = .next t ∧ t.run = .faulted .invalidOpcode) ∧
    (∃ t, step (at3000 0xF000 .z [] [] []) = .next t ∧ t.run = .faulted .invalidTrapCode) ∧
    (∃ t, step (at3000 0x1021 .z [] [] []) = .next t ∧ t.run = .running) :=
  ⟨⟨_, rfl, rfl⟩, ⟨_, rfl, rfl⟩, ⟨_, rfl, rfl⟩, ⟨_, rfl, rfl⟩⟩

/-- Both cases: a step, and a wait. -/
theorem witness_RunningMachineStepsUnlessWaiting : (at3000 0x1021 .z [] [] []).run = .running ∧
    (at3000 0xF023 .z [] [] []).run = .running ∧ step (at3000 0xF023 .z [] [] []) = .fault .waitingForInput :=
  ⟨rfl, rfl, rfl⟩

/-- The word at the PC of `at3000`. -/
theorem at3000_cell (w : Word) : (at3000 w .p [] [] []).cell (at3000 w .p [] [] []).pc = w := by
  simp [at3000, machine]

/-- The first and the last of the words. -/
theorem witness_NopWordsOnlyAdvancePc :
    (∀ w ∈ [(0x0000 : Word), 0x01FF], (at3000 w .p [] [] []).run = .running ∧
      (at3000 w .p [] [] []).pc ≠ Config.kbsr ∧
      ((at3000 w .p [] [] []).cell (at3000 w .p [] [] []).pc).toNat < 0x0200) :=
  fun w hw => ⟨rfl, show (0x3000 : Word) ≠ Config.kbsr by decide, by
    rw [at3000_cell]
    simp only [List.mem_cons, List.not_mem_nil, or_false] at hw
    rcases hw with rfl | rfl <;> decide⟩

/-- The first and the last word of each opcode. -/
theorem witness_ReservedWordsFault :
    (∀ w ∈ [(0x8000 : Word), 0x8FFF, 0xD000, 0xDFFF], (at3000 w .p [] [] []).run = .running ∧
      (at3000 w .p [] [] []).pc ≠ Config.kbsr ∧
      (((at3000 w .p [] [] []).cell (at3000 w .p [] [] []).pc).toNat / 0x1000 = 0x8 ∨
       ((at3000 w .p [] [] []).cell (at3000 w .p [] [] []).pc).toNat / 0x1000 = 0xD)) :=
  fun w hw => ⟨rfl, show (0x3000 : Word) ≠ Config.kbsr by decide, by
    rw [at3000_cell]
    simp only [List.mem_cons, List.not_mem_nil, or_false] at hw
    rcases hw with rfl | rfl | rfl | rfl <;> decide⟩

/-- The codes on both sides of 0x20 to 0x25 and at both ends. -/
theorem witness_UnassignedTrapWordsFault :
    (∀ w ∈ [(0xF000 : Word), 0xF01F, 0xF026, 0xFFFF], (at3000 w .p [] [] []).run = .running ∧
      (at3000 w .p [] [] []).pc ≠ Config.kbsr ∧
      0xF000 ≤ ((at3000 w .p [] [] []).cell (at3000 w .p [] [] []).pc).toNat ∧
      (((at3000 w .p [] [] []).cell (at3000 w .p [] [] []).pc).toNat % 256 < 0x20 ∨
       0x25 < ((at3000 w .p [] [] []).cell (at3000 w .p [] [] []).pc).toNat % 256)) :=
  fun w hw => ⟨rfl, show (0x3000 : Word) ≠ Config.kbsr by decide, by
    rw [at3000_cell]
    simp only [List.mem_cons, List.not_mem_nil, or_false] at hw
    rcases hw with rfl | rfl | rfl | rfl <;> decide⟩

theorem witness_StoreSeenByLaterFetch : State.reset.run = .running ∧ (0xFFFF : Word) ≠ Config.kbsr ∧
    Config.kbsr ≠ (0xFFFF : Word) := by decide

/-- Taken on each of the three bits, and not taken. -/
theorem witness_BranchOnCondition :
    (∃ t, exec (.br true false false 0x100) { State.reset with cond := .n } = .next t ∧ t.pc = 0x2F00) ∧
    (∃ t, exec (.br false true false 0x0FF) { State.reset with cond := .z } = .next t ∧ t.pc = 0x30FF) ∧
    (∃ t, exec (.br false false true 1) { State.reset with cond := .p } = .next t ∧ t.pc = 0x3001) ∧
    (∃ t, exec (.br true false true 1) { State.reset with cond := .z } = .next t ∧ t.pc = 0x3000) :=
  ⟨⟨_, rfl, rfl⟩, ⟨_, rfl, rfl⟩, ⟨_, rfl, rfl⟩, ⟨_, rfl, rfl⟩⟩

/-- Both clauses: another base, and R7 itself. -/
theorem witness_CallThroughRegister :
    (∃ t, exec (.jsrr .r3) { State.reset with regs := State.reset.regs.set .r3 0x5000 } = .next t ∧ t.pc = 0x5000) ∧
    (∃ t, exec (.jsrr .r7) { State.reset with regs := State.reset.regs.set .r7 0x5000 } = .next t ∧ t.pc = 0x3000) :=
  ⟨⟨_, rfl, rfl⟩, ⟨_, rfl, rfl⟩⟩

/-- Both cases of the character. -/
theorem witness_GetcTakesCharacter : (at3000 0xF020 .n [] [] [0x00, 0x41]).inQ = 0x00 :: [0x41] ∧
    (at3000 0xF020 .n [] [] [0xFF]).inQ = 0xFF :: [] := ⟨rfl, rfl⟩

theorem witness_InPromptsAndTakes : (at3000 0xF023 .n [] [] [0x00, 0x41]).inQ = 0x00 :: [0x41] ∧
    (at3000 0xF023 .n [] [] [0xFF]).inQ = 0xFF :: [] := ⟨rfl, rfl⟩

theorem witness_GetcAndInWaitForInput : State.reset.inQ = [] ∧
    exec .trapGetc State.reset = .fault .waitingForInput ∧
    ∃ t, exec .trapGetc (State.reset.arrive [0x61]) = .next t ∧ t.readReg .r0 = 0x0061 := ⟨rfl, rfl, _, rfl, rfl⟩

/-- Both services, on a string. -/
theorem witness_PutServicesComplete :
    after (exec .trapPuts (at3000 0xF022 .z [(.r0, 0x4000)] [(0x4000, 0x4142)] [])) State.outS = some [0x42] ∧
    after (exec .trapPutsp (at3000 0xF024 .z [(.r0, 0x4000)] [(0x4000, 0x4142)] [])) State.outS = some [0x42, 0x41] := by
  decide

/-- Both clauses: a zero word, a word that is none, and the polled cell with a character pending. -/
theorem witness_PutsLoopTurn :
    ((at3000 0 .z [(.r0, 0x4000)] [] []).memRead ((at3000 0 .z [(.r0, 0x4000)] [] []).readReg .r0)).1 = 0 ∧
    ((at3000 0 .z [(.r0, 0xFFFF)] [(0xFFFF, 0x0041)] []).memRead
      ((at3000 0 .z [(.r0, 0xFFFF)] [(0xFFFF, 0x0041)] []).readReg .r0)).1 ≠ 0 ∧
    ((at3000 0 .z [(.r0, 0xFE00)] [] [0x6B]).memRead
      ((at3000 0 .z [(.r0, 0xFE00)] [] [0x6B]).readReg .r0)).1 ≠ 0 := by decide

/-- As PUTS's: the hypotheses are the same. -/
theorem witness_PutspLoopTurn :
    ((at3000 0 .z [(.r0, 0x4000)] [] []).memRead ((at3000 0 .z [(.r0, 0x4000)] [] []).readReg .r0)).1 = 0 ∧
    ((at3000 0 .z [(.r0, 0xFFFF)] [(0xFFFF, 0x4100)] []).memRead
      ((at3000 0 .z [(.r0, 0xFFFF)] [(0xFFFF, 0x4100)] []).readReg .r0)).1 ≠ 0 := by decide

/-- A string of two words that wraps at the end of memory (T11), and the empty one. -/
def wrapping : State := at3000 0xF022 .z [(.r0, 0xFFFF)] [(0xFFFF, 0x0041), (0x0000, 0x0042)] []

theorem stringAt_wrapping : StringAt wrapping (wrapping.readReg .r0) [0x0041, 0x0042] :=
  ⟨fun k h => by
    have : k = 0 ∨ k = 1 := by simp at h; omega
    rcases this with rfl | rfl
    · exact ⟨rfl, fun e => absurd (show (0x0041 : Word) = 0 from e) (by decide), by decide⟩
    · exact ⟨rfl, fun e => absurd (show (0x0042 : Word) = 0 from e) (by decide), by decide⟩, by decide, by decide⟩

theorem stringAt_empty : StringAt State.reset (State.reset.readReg .r0) [] :=
  ⟨fun k h => absurd h (by simp), by decide, by decide⟩

theorem witness_PutsWritesString : StringAt wrapping (wrapping.readReg .r0) [0x0041, 0x0042] ∧
    StringAt State.reset (State.reset.readReg .r0) [] ∧ after (exec .trapPuts wrapping) State.outS = some [0x41, 0x42] :=
  ⟨stringAt_wrapping, stringAt_empty, by decide⟩

theorem witness_PutspWritesString : StringAt wrapping (wrapping.readReg .r0) [0x0041, 0x0042] ∧
    StringAt State.reset (State.reset.readReg .r0) [] ∧
    after (exec .trapPutsp wrapping) State.outS = some [0x41, 0x42] :=
  ⟨stringAt_wrapping, stringAt_empty, by decide⟩

/-- Each of the six services answers a next state. -/
theorem witness_TrapsKeepRegistersAndPc :
    (∀ i ∈ [Instr.trapGetc, .trapOut, .trapPuts, .trapIn, .trapPutsp, .trapHalt],
      (after (exec i (at3000 0 .z [(.r0, 0x4000)] [] [0x61])) State.pc).isSome = true) := by decide

theorem witness_EveryMoveKeepsInv : State.reset.Inv ∧ (∃ t, step State.reset = .next t) ∧
    (∃ t, move .step State.reset = .next t) ∧ (∃ t, move (.arrive [0x61]) State.reset = .next t) :=
  ⟨⟨by decide, ⟨.r0, by unfold CondReflects; decide⟩, by decide⟩, ⟨_, rfl⟩, ⟨_, rfl⟩, ⟨_, rfl⟩⟩

theorem witness_OutputGrowsInputShrinks : ∃ t, step (at3000 0xF023 .z [] [] [0x61]) = .next t ∧
    t.outS = Config.inPromptDefault ∧ t.inQ = [] := ⟨_, rfl, rfl, rfl⟩

/-- A store at the end of memory that changes the cell, by each of the three stores. -/
theorem witness_OnlyStoresChangeMemory :
    (∃ t, step (machine 0xFFFD .z [(.r1, 7)] [(0xFFFD, 0x3201)] []) = .next t ∧
      t.cell 0xFFFF ≠ (machine 0xFFFD .z [(.r1, 7)] [(0xFFFD, 0x3201)] []).cell 0xFFFF) ∧
    (∃ t, step (at3000 0xB200 .z [(.r1, 7)] [(0x3001, 0xFFFF)] []) = .next t ∧
      t.cell 0xFFFF ≠ (at3000 0xB200 .z [(.r1, 7)] [(0x3001, 0xFFFF)] []).cell 0xFFFF) ∧
    (∃ t, step (at3000 0x72BF .z [(.r1, 7)] [] []) = .next t ∧
      t.cell 0xFFFF ≠ (at3000 0x72BF .z [(.r1, 7)] [] []).cell 0xFFFF) :=
  ⟨⟨_, rfl, by decide⟩, ⟨_, rfl, by decide⟩, ⟨_, rfl, by decide⟩⟩

theorem witness_OnlyControlWritesPc : (∃ t, step (machine 0xFFFF .z [] [(0xFFFF, 0x1021)] []) = .next t ∧ t.pc = 0) ∧
    writesPc (decode ((machine 0xFFFF .z [] [(0xFFFF, 0x1021)] []).memRead 0xFFFF).1) = false :=
  ⟨⟨_, rfl, rfl⟩, by decide⟩

theorem witness_LaterInputDoesNotDisturb : ∃ t, step (at3000 0xF020 .z [] [] [0x61, 0x62]) = .next t ∧ t.inQ ≠ [] :=
  ⟨_, rfl, by decide⟩

/-- Each clause: a normal end, a fault after a step, a termination, and a run not yet ended that faults at its next
step. -/
theorem witness_RunEndsInOneWay : (at3000 0xF025 .z [] [] []).run = .running ∧
    (∃ t, run [.step] (at3000 0xF025 .z [] [] []) = .halted t) ∧
    (∃ t, run [.step] (at3000 0xD000 .z [] [] []) = .faulted .invalidOpcode t) ∧
    run [.step, .terminate] State.reset = .terminated ∧
    (∀ u, run [.terminate] State.reset ≠ .unfinished u) ∧
    (∃ u t, run [.step] (machine 0x3000 .z [] [(0x3001, 0xD000)] []) = .unfinished u ∧ step u = .next t ∧
      t.run = .faulted .invalidOpcode) ∧
    HaltsWith (fun t => t.pc = 0x3001) [.step] (at3000 0xF025 .z [] [] []) :=
  ⟨rfl, ⟨_, rfl⟩, ⟨_, rfl⟩, rfl, fun _ h => RunEnd.noConfusion h, ⟨_, _, rfl, rfl, rfl⟩, ⟨_, rfl, rfl⟩⟩

/-- Each clause at the ends of an image that runs past 0xFFFF (L2) and of one that starts at 0. -/
theorem witness_ImagePlacement :
    (Image.mk 0xFFFE [1, 2, 3]).origin.toNat + 1 = (0xFFFF : Word).toNat ∧ 1 < (Image.mk 0xFFFE [1, 2, 3]).payload.length ∧
    (0xFFFD : Word).toNat < (Image.mk 0xFFFE [1, 2, 3]).origin.toNat ∧
    (Image.mk 0x0000 [1]).origin.toNat + (Image.mk 0x0000 [1]).payload.length ≤ (0x0001 : Word).toNat := by decide

theorem witness_BootState : Memory.wf BootParams.default.memInit ∧
    Memory.wf (State.boot BootParams.default [Image.mk 0xFFFE [1, 2, 3]]).mem := by decide

theorem witness_ImageBytes : Image.ofBytes [0x30, 0x00, 0x12, 0x34] = some (Image.mk 0x3000 [0x1234]) ∧
    Image.ofBytes [0x40, 0x00] = some (Image.mk 0x4000 []) := by decide

end Sys2Proof.Tests
end

section
/-! SUPPORT. Words and the environment (00_scope.md R9, R12): the value and the bits of a sign-extended field, what a
step may do to input, output and the run's texts, and that a step commutes with the arrival of characters behind one
it leaves pending. -/

namespace Sys2Proof.Machine

/-! ### Sign extension (00_scope.md R9) -/

/-- R9's second form: "sext_n(x) = x when x < 2^(n−1), and x + 65536 − 2^n otherwise". -/
theorem toNat_sext {n : Nat} (x : BitVec n) (h1 : 1 ≤ n) (h15 : n ≤ 15) :
    (sext n x).toNat = if x.toNat < 2 ^ (n - 1) then x.toNat else x.toNat + 65536 - 2 ^ n := by
  have hhalf : 2 ^ (n - 1) * 2 = 2 ^ n := Nat.two_pow_pred_mul_two h1
  have hword : 2 ^ n ≤ 2 ^ 16 := Nat.pow_le_pow_right (by omega) (by omega)
  have hx := x.isLt
  rw [sext_eq_signExtend x h1 h15, BitVec.toNat_signExtend, BitVec.toNat_setWidth]
  cases hm : x.msb with
  | false =>
    have := BitVec.msb_eq_false_iff_two_mul_lt.mp hm
    rw [if_neg Bool.false_ne_true, if_pos (by omega)]
    omega
  | true =>
    have := BitVec.msb_eq_true_iff_two_mul_ge.mp hm
    rw [if_pos rfl, if_neg (by omega)]
    omega

/-- R9's first form, bit by bit: the field below n, its sign bit from n to 15. -/
theorem getLsbD_sext {n k : Nat} (x : BitVec n) (h1 : 1 ≤ n) (h15 : n ≤ 15) (hk : k < 16) :
    (sext n x).getLsbD k = if k < n then x.getLsbD k else x.getLsbD (n - 1) := by
  rw [sext_eq_signExtend x h1 h15, BitVec.getLsbD_signExtend, BitVec.msb_eq_getLsbD_last, decide_eq_true hk,
    Bool.true_and]

/-- Settles O6: the value, the bits and the sign of `sext`, each from its being two's-complement sign extension. -/
theorem signAndZeroExtension : Obligations.SignAndZeroExtension := by
  refine ⟨fun n x h1 h15 => ⟨toNat_sext x h1 h15, fun k hk => ?_, fun k hnk hk => ?_, toInt_sext x h1 h15⟩, toNat_zext⟩
  · rw [getLsbD_sext x h1 h15 (by omega), if_pos hk]
  · rw [getLsbD_sext x h1 h15 hk, if_neg (by omega)]

/-! ### A step's progress (00_scope.md R12) -/

/-- Every step makes progress: the fetch's, then the instruction's. -/
theorem Progress.step {s t : State} (h : Machine.step s = .next t) : Progress s t := by
  rw [step_running (running_of_step h)] at h
  exact (Progress.fetch s).trans (.exec h)

/-- Settles O53: output and input by a step's progress; the texts, for the one other move that has a next state, because
arrival touches only the input. -/
theorem outputGrowsInputShrinks : Obligations.OutputGrowsInputShrinks := by
  refine ⟨fun s t h => ⟨(Progress.step h).output, (Progress.step h).input⟩, fun m s t h => ?_⟩
  obtain ⟨-, hs⟩ | ⟨cs, -, rfl⟩ := move_cases h
  · exact (Progress.step hs).texts
  · rfl

/-! ### Arrival behind a pending character (40_loop.md R114, log 23)

Each operation that looks at the input commutes with `State.arrive` when it leaves a character pending: it then found
one pending as well, and takes its characters from the front. -/

section
variable (s : State) (cs : List Byte) (r : Reg) (a : Word)

@[simp] theorem inQ_arrive : (s.arrive cs).inQ = s.inQ ++ cs := rfl
@[simp] theorem pc_arrive : (s.arrive cs).pc = s.pc := rfl
@[simp] theorem run_arrive : (s.arrive cs).run = s.run := rfl
@[simp] theorem texts_arrive : (s.arrive cs).texts = s.texts := rfl
@[simp] theorem readReg_arrive : (s.arrive cs).readReg r = s.readReg r := rfl
@[simp] theorem cell_arrive : (s.arrive cs).cell a = s.cell a := rfl
theorem outBytes_arrive (bs : List Byte) : (s.arrive cs).outBytes bs = (s.outBytes bs).arrive cs := rfl

end

/-- Characters pending after progress were pending before it. -/
theorem Progress.pending {s t : State} (h : Progress s t) (ht : t.inQ ≠ []) : s.inQ ≠ [] := by
  obtain ⟨k, hk⟩ := h.input
  intro hs
  exact ht (by rw [hk, hs, List.drop_nil])

/-- InTake takes the oldest character, whatever arrives behind it. -/
theorem inTake_arrive {s t : State} {c : Byte} (h : s.inTake = some (c, t)) (cs : List Byte) :
    (s.arrive cs).inTake = some (c, t.arrive cs) := by
  obtain ⟨hq, ht⟩ := inTake_frame h
  rw [inTake_cons (rest := t.inQ ++ cs) (by rw [inQ_arrive, hq, List.cons_append]), ht]
  rfl

/-- A read: only the poll at 0xFE00 looks at the input, and it finds the same character first. -/
theorem memRead_arrive {s : State} {a : Word} (h : (s.memRead a).2.inQ ≠ []) (cs : List Byte) :
    (s.arrive cs).memRead a = ((s.memRead a).1, (s.memRead a).2.arrive cs) := by
  have hs := (Progress.memRead s a).pending h
  obtain ⟨ha, e⟩ | ⟨-, hq, -⟩ | ⟨rfl, c, rest, hq, e⟩ := memRead_cases s a
  · rw [e, memRead_plain _ ha, cell_arrive]
  · exact absurd hq hs
  · rw [e, memRead_kbsr_cons (c := c) (rest := rest ++ cs) (by rw [inQ_arrive, hq, List.cons_append])]
    rfl

/-- The fetch: its read's case, since PC's increment looks at no input. -/
theorem fetch_arrive {s : State} (h : s.fetch.2.inQ ≠ []) (cs : List Byte) :
    (s.arrive cs).fetch = (s.fetch.1, s.fetch.2.arrive cs) := by
  rw [fetch_eq] at h
  rw [fetch_eq, fetch_eq, pc_arrive, memRead_arrive h]
  rfl

/-- The string walk, turn by turn. -/
theorem putString_arrive (bytes : Word → List Byte) (cs : List Byte) : ∀ (n : Nat) (a : Word) {s t : State},
    State.putString bytes n a s = some t → t.inQ ≠ [] → State.putString bytes n a (s.arrive cs) = some (t.arrive cs) := by
  intro n
  induction n with
  | zero => intro a s t h _; simp [State.putString] at h
  | succ n ih =>
    intro a s t h ht
    rw [putString_succ] at h ⊢
    by_cases hz : (s.memRead a).1 = 0x0000
    · rw [if_pos hz] at h
      obtain rfl := Option.some.inj h
      rw [memRead_arrive ht, if_pos hz]
    · rw [if_neg hz] at h
      have hread : (s.memRead a).2.inQ ≠ [] := (Progress.putString h).pending ht
      rw [memRead_arrive hread, if_neg hz, outBytes_arrive]
      exact ih _ h ht

/-- PUTS and PUTSP: the walk, which the fuel for the longer input does not change. -/
theorem putService_arrive (bytes : Word → List Byte) {s t : State} (h : s.putService bytes = .next t) (ht : t.inQ ≠ [])
    (cs : List Byte) : (s.arrive cs).putService bytes = .next (t.arrive cs) := by
  obtain ⟨u, hu, he⟩ := putService_completes bytes s
  obtain rfl := Host.Outcome.next.inj (he.symm.trans h)
  have hfuel : s.stringFuel ≤ (s.arrive cs).stringFuel := by
    simp only [State.stringFuel, Config.memCells, inQ_arrive, List.length_append]
    omega
  exact putService_eq bytes (putString_mono bytes _ _ _ (putString_arrive bytes cs _ _ hu ht) hfuel)

/-- Every instruction: most do not look at the input, the loads and STI read memory, GETC and IN take a character, PUTS
and PUTSP walk a string. -/
theorem exec_arrive {i : Instr} {s t : State} (h : exec i s = .next t) (ht : t.inQ ≠ []) (cs : List Byte) :
    exec i (s.arrive cs) = .next (t.arrive cs) := by
  cases i with
  | addReg | addImm | andReg | andImm | not | lea | jmp | jsr | jsrr | st | str | rti | res | trapUnassigned | trapOut
  | trapHalt => exact Host.Outcome.next.inj h ▸ rfl
  | br =>
    obtain rfl := Host.Outcome.next.inj h
    rw [apply_ite (State.arrive · cs)]
    rfl
  | ld | ldr | sti =>
    obtain rfl := Host.Outcome.next.inj h
    simp only [exec, execLd, execLdr, execSti, pc_arrive, readReg_arrive, memRead_arrive ht]
    rfl
  | ldi =>
    obtain rfl := Host.Outcome.next.inj h
    have hpointer := (Progress.memRead _ _).pending ht
    simp only [exec, execLdi, pc_arrive, memRead_arrive hpointer, memRead_arrive ht]
    rfl
  | trapGetc =>
    simp only [exec, execTrapGetc] at h ⊢
    split at h
    · next c u hc => rw [inTake_arrive hc, ← Host.Outcome.next.inj h]; rfl
    · simp at h
  | trapIn =>
    simp only [exec, execTrapIn, texts_arrive, outBytes_arrive] at h ⊢
    split at h
    · next c u hc => rw [inTake_arrive hc, ← Host.Outcome.next.inj h]; rfl
    · simp at h
  | trapPuts => exact putService_arrive putsBytes h ht cs
  | trapPutsp => exact putService_arrive putspBytes h ht cs

/-- Settles O56: a step is the fetch and the instruction, and what the instruction leaves pending the fetch left
pending. -/
theorem laterInputDoesNotDisturb : Obligations.LaterInputDoesNotDisturb := by
  intro s t cs h ht
  have hrun := running_of_step h
  rw [step_running hrun] at h
  have hfetch : s.fetch.2.inQ ≠ [] := (Progress.exec h).pending ht
  rw [step_running ((run_arrive s cs).trans hrun), fetch_arrive hfetch]
  exact exec_arrive h ht cs

end Sys2Proof.Machine
end

section
/-! SUPPORT. State (10_state.md R20 to R36): the flag of a word, what an instruction does to the registers, to COND and
to PC, where COND is read, the invariant, and canonical memories as data. -/

namespace Sys2Proof.Machine

/-! ### The registers and COND after an instruction (10_state.md R22, R24, R29) -/

/-- The register file and COND of t are those of s after at most one register write (R22): of the register d if there
is one, and of none otherwise. -/
def RegWriteAtMost : Option Reg → State → State → Prop
  | some d, s, t => ∃ v, t.regs = s.regs.set d v ∧ t.cond = flag v
  | none, s, t => t.regs = s.regs ∧ t.cond = s.cond

namespace RegWriteAtMost

theorem writeReg (s : State) (d : Reg) (v : Word) : RegWriteAtMost (some d) s (s.writeReg d v) := ⟨v, rfl, rfl⟩

/-- A write after a change that spares registers and COND. -/
theorem writeReg_of_none {s t : State} (h : RegWriteAtMost none s t) (d : Reg) (v : Word) :
    RegWriteAtMost (some d) s (t.writeReg d v) := by
  obtain ⟨hregs, -⟩ := h
  exact ⟨v, congrArg (·.set d v) hregs, rfl⟩

theorem none_trans {d : Option Reg} {s t u : State} (h : RegWriteAtMost none s t) (h' : RegWriteAtMost d t u) :
    RegWriteAtMost d s u := by
  obtain ⟨hregs, hcond⟩ := h
  cases d with
  | none => exact ⟨h'.1.trans hregs, h'.2.trans hcond⟩
  | some d =>
    obtain ⟨v, hregs', hcond'⟩ := h'
    exact ⟨v, by rw [hregs', hregs], hcond'⟩

theorem memRead (s : State) (a : Word) : RegWriteAtMost none s (s.memRead a).2 := ⟨by simp, by simp⟩

theorem inTake {s t : State} {c : Byte} (h : s.inTake = some (c, t)) : RegWriteAtMost none s t := by
  rw [(inTake_frame h).2]
  exact ⟨rfl, rfl⟩

theorem putService {bytes : Word → List Byte} {s t : State} (h : s.putService bytes = .next t) :
    RegWriteAtMost none s t := by
  obtain ⟨-, -, -, -, ht⟩ := putService_frame bytes h
  rw [ht]
  exact ⟨rfl, rfl⟩

theorem fetch (s : State) : RegWriteAtMost none s s.fetch.2 := by
  rw [fetch_eq]
  exact memRead s s.pc

/-- Every instruction: the register R24 lists, or none. -/
theorem exec {i : Instr} {s t : State} (h : Machine.exec i s = .next t) : RegWriteAtMost (regWritten i) s t := by
  cases i with
  | addReg | addImm | andReg | andImm | not | lea | jsr | jsrr => exact Host.Outcome.next.inj h ▸ ⟨_, rfl, rfl⟩
  | jmp | st | str | rti | res | trapUnassigned | trapOut | trapHalt => exact Host.Outcome.next.inj h ▸ ⟨rfl, rfl⟩
  | br =>
    obtain rfl := Host.Outcome.next.inj h
    split <;> exact ⟨rfl, rfl⟩
  | ld | ldr => exact Host.Outcome.next.inj h ▸ (memRead _ _).writeReg_of_none _ _
  | ldi => exact Host.Outcome.next.inj h ▸ ((memRead _ _).none_trans (memRead _ _)).writeReg_of_none _ _
  | sti => exact Host.Outcome.next.inj h ▸ memRead s _
  | trapGetc =>
    simp only [Machine.exec, execTrapGetc] at h
    split at h
    · next c u hc => exact Host.Outcome.next.inj h ▸ (inTake hc).writeReg_of_none _ _
    · simp at h
  | trapIn =>
    simp only [Machine.exec, execTrapIn] at h
    split at h
    · next c u hc =>
      have hu : RegWriteAtMost none (s.outBytes s.texts.inPrompt) u := inTake hc
      exact Host.Outcome.next.inj h ▸ hu.writeReg_of_none .r0 (zext c)
    · simp at h
  | trapPuts | trapPutsp => exact putService h

/-- A step: the fetch spares registers and COND, then the instruction. -/
theorem step {s t : State} (h : Machine.step s = .next t) : ∃ d, RegWriteAtMost d s t := by
  rw [step_running (running_of_step h)] at h
  exact ⟨_, (fetch s).none_trans (exec h)⟩

/-- The register written holds the value COND is set from. -/
theorem cond_eq {d : Reg} {s t : State} (h : RegWriteAtMost (some d) s t) : t.cond = flag (t.readReg d) := by
  obtain ⟨v, hregs, hcond⟩ := h
  simp [State.readReg, hregs, hcond]

theorem regsKeptBut {d : Reg} {s t : State} (h : RegWriteAtMost (some d) s t) : RegsKeptBut d s t := by
  obtain ⟨v, hregs, -⟩ := h
  intro r hr
  simp [State.readReg, hregs, hr]

theorem regsKept {s t : State} (h : RegWriteAtMost none s t) : RegsKept s t := fun r => congrArg (·.get r) h.1

/-- A register that changed is the one written. -/
theorem cond_eq_of_changed {d : Option Reg} {r : Reg} {s t : State} (h : RegWriteAtMost d s t)
    (hr : t.readReg r ≠ s.readReg r) : t.cond = flag (t.readReg r) := by
  cases d with
  | none => exact absurd (h.regsKept r) hr
  | some d =>
    obtain rfl : r = d := by_contra fun hne => hr (h.regsKeptBut r hne)
    exact h.cond_eq

/-- COND is the flag of some register's value: of the one just written, or of the one it was before. -/
theorem exists_cond_eq {d : Option Reg} {s t : State} (h : RegWriteAtMost d s t)
    (hs : ∃ r, s.cond = flag (s.readReg r)) : ∃ r, t.cond = flag (t.readReg r) := by
  cases d with
  | some d => exact ⟨d, h.cond_eq⟩
  | none =>
    obtain ⟨r, hr⟩ := hs
    exact ⟨r, by rw [h.regsKept r, h.2, hr]⟩

end RegWriteAtMost

/-! ### The invariant -/

/-- The invariant with COND as the flag of some register's value. -/
theorem inv_iff {s : State} :
    s.Inv ↔ Memory.wf s.mem ∧ (∃ r, s.cond = flag (s.readReg r)) ∧ s.flushed ≤ s.outS.length := by
  simp only [State.Inv, condReflects_iff]

/-- A step keeps the invariant: memory and mark by its progress, COND by the one register write it may make. -/
theorem inv_step {s t : State} (hs : s.Inv) (h : step s = .next t) : t.Inv := by
  obtain ⟨hmem, hcond, hmark⟩ := inv_iff.1 hs
  obtain ⟨d, hd⟩ := RegWriteAtMost.step h
  have hp := Progress.step h
  exact inv_iff.2 ⟨hp.canonical hmem, hd.exists_cond_eq hcond, hp.mark hmark⟩

/-- Arriving characters touch the input alone, of which the invariant says nothing. -/
theorem inv_arrive {s : State} (hs : s.Inv) (cs : List Byte) : (s.arrive cs).Inv := hs

/-- Settles O51: a move with a next state is a step or an arrival, each of which keeps the invariant. -/
theorem everyMoveKeepsInv : Obligations.EveryMoveKeepsInv := by
  refine ⟨fun s t => inv_step, fun m s t hs h => ?_⟩
  obtain ⟨-, hstep⟩ | ⟨cs, -, rfl⟩ := move_cases h
  · exact inv_step hs hstep
  · exact inv_arrive hs cs

/-- Settles O52: at reset memory lists no cell, COND is Z as every register is zero, and nothing was output. -/
theorem resetMeetsInv : Obligations.ResetMeetsInv :=
  ⟨rfl, rfl, inv_iff.2 ⟨⟨.nil, by simp [State.reset]⟩, ⟨.r0, rfl⟩, Nat.le_refl 0⟩⟩

/-! ### Registers written (10_state.md R22, R24) -/

/-- Settles O8: the write itself; the register an instruction writes; and a register that changed is that one. -/
theorem everyRegisterWriteSetsCond : Obligations.EveryRegisterWriteSetsCond := by
  refine ⟨fun s r v => ⟨by simp, rfl, (RegWriteAtMost.writeReg s r v).regsKeptBut⟩, fun i s t d h hd => ?_,
    fun i s t r h hr => (RegWriteAtMost.exec h).cond_eq_of_changed hr⟩
  have hw := RegWriteAtMost.exec h
  rw [hd] at hw
  exact hw.cond_eq

/-- Settles O9: R24's list, and R29's for COND, read off the one register write an instruction may make. -/
theorem registersWrittenPerInstruction : Obligations.RegistersWrittenPerInstruction := by
  intro i s t h
  have hw := RegWriteAtMost.exec h
  cases hd : regWritten i with rw [hd] at hw
  | none => exact ⟨hw.regsKept, hw.2⟩
  | some d => exact ⟨hw.regsKeptBut, condReflects_iff.2 hw.cond_eq⟩

/-! ### Where COND is read (10_state.md R29)

Each operation that a meaning other than BR's is written with answers the same from a state with another COND. -/

/-- s with another COND. -/
def State.withCond (s : State) (c : Cond) : State := { s with cond := c }

section
variable (s : State) (c : Cond) (r : Reg)

@[simp] theorem pc_withCond : (s.withCond c).pc = s.pc := rfl
@[simp] theorem texts_withCond : (s.withCond c).texts = s.texts := rfl
@[simp] theorem readReg_withCond : (s.withCond c).readReg r = s.readReg r := rfl
theorem outBytes_withCond (bs : List Byte) : (s.withCond c).outBytes bs = (s.outBytes bs).withCond c := rfl

/-- A register write forgets COND. -/
@[simp] theorem writeReg_withCond (v : Word) : (s.withCond c).writeReg r v = s.writeReg r v := rfl

@[simp] theorem memRead_withCond (a : Word) :
    (s.withCond c).memRead a = ((s.memRead a).1, (s.memRead a).2.withCond c) :=
  (memRead_congr s a s.regs s.pc c).trans (by simp [State.withCond])

end

theorem inTake_withCond {s t : State} {b : Byte} (h : s.inTake = some (b, t)) (c : Cond) :
    (s.withCond c).inTake = some (b, t.withCond c) := by
  obtain ⟨hq, ht⟩ := inTake_frame h
  rw [inTake_cons (rest := t.inQ) (s := s.withCond c) hq, ht]
  rfl

theorem putString_withCond {bytes : Word → List Byte} {n : Nat} {a : Word} {s t : State}
    (h : State.putString bytes n a s = some t) (c : Cond) :
    State.putString bytes n a (s.withCond c) = some (t.withCond c) := by
  obtain ⟨-, -, -, -, ht⟩ := putString_frame bytes n a h
  calc State.putString bytes n a (s.withCond c)
      = (State.putString bytes n a s).map (fun t => { t with regs := s.regs, pc := s.pc, cond := c }) :=
        putString_congr bytes n a s s.regs s.pc c
    _ = some { t with regs := s.regs, pc := s.pc, cond := c } := by rw [h]; rfl
    _ = some (t.withCond c) := by rw [ht]; rfl

theorem putService_withCond (bytes : Word → List Byte) {s t : State} (h : s.putService bytes = .next t) (c : Cond) :
    (s.withCond c).putService bytes = .next (t.withCond c) := by
  obtain ⟨u, hu, he⟩ := putService_completes bytes s
  obtain rfl := Host.Outcome.next.inj (he.symm.trans h)
  exact putService_eq bytes (putString_withCond hu c)

/-- Every instruction but BR: from another COND it has the same next state, up to COND. -/
theorem exec_withCond {i : Instr} {s t : State} (hbr : ∀ n z p off, i ≠ .br n z p off) (h : exec i s = .next t)
    (c : Cond) : ∃ c', exec i (s.withCond c) = .next (t.withCond c') := by
  cases i with
  | br n z p off => exact absurd rfl (hbr n z p off)
  | addReg | addImm | andReg | andImm | not | lea | jsr | jsrr =>
    exact ⟨t.cond, Host.Outcome.next.inj h ▸ rfl⟩
  | jmp | st | str | rti | res | trapUnassigned | trapOut | trapHalt =>
    exact ⟨c, Host.Outcome.next.inj h ▸ rfl⟩
  | ld | ldr | ldi =>
    refine ⟨t.cond, ?_⟩
    rw [← Host.Outcome.next.inj h]
    simp only [exec, execLd, execLdr, execLdi, pc_withCond, readReg_withCond, memRead_withCond, writeReg_withCond]
    rfl
  | sti =>
    obtain rfl := Host.Outcome.next.inj h
    refine ⟨c, ?_⟩
    simp only [exec, execSti, pc_withCond, memRead_withCond]
    rfl
  | trapGetc | trapIn =>
    simp only [exec, execTrapGetc, execTrapIn, texts_withCond, outBytes_withCond] at h ⊢
    split at h
    · next b u hb => exact ⟨t.cond, by rw [inTake_withCond hb, ← Host.Outcome.next.inj h]; rfl⟩
    · simp at h
  | trapPuts => exact ⟨c, putService_withCond putsBytes h c⟩
  | trapPutsp => exact ⟨c, putService_withCond putspBytes h c⟩

/-- Settles O10: the next state from another COND differs in COND at most. -/
theorem condReadOnlyByBr : Obligations.CondReadOnlyByBr := by
  intro i s t c hbr h
  obtain ⟨c', hc'⟩ := exec_withCond hbr h c
  exact ⟨t.withCond c', hc', rfl⟩

/-! ### PC (10_state.md R25, R26) -/

/-- An instruction R26 does not list leaves PC as the increment set it. -/
theorem pc_exec {i : Instr} {s t : State} (h : exec i s = .next t) (hi : writesPc i = false) : t.pc = s.pc := by
  cases i with
  | br | jmp | jsr | jsrr => simp [writesPc] at hi
  | addReg | addImm | andReg | andImm | not | lea | st | str | rti | res | trapUnassigned | trapOut | trapHalt =>
    exact Host.Outcome.next.inj h ▸ rfl
  | ld | ldr | ldi | sti =>
    obtain rfl := Host.Outcome.next.inj h
    simp
  | trapGetc | trapIn =>
    simp only [exec, execTrapGetc, execTrapIn] at h
    split at h
    · next c u hc =>
      rw [← Host.Outcome.next.inj h, (inTake_frame hc).2]
      rfl
    · simp at h
  | trapPuts | trapPutsp =>
    obtain ⟨-, -, -, -, ht⟩ := putService_frame _ h
    rw [ht]

/-- Settles O55: the fetch increments PC modulo 65536 and the instruction leaves it. -/
theorem onlyControlWritesPc : Obligations.OnlyControlWritesPc := by
  intro s t h hi
  rw [step_running (running_of_step h), fetch_eq] at h
  rw [pc_exec h hi]
  exact BitVec.toNat_add s.pc 1

/-! ### The flag (10_state.md R23) -/

/-- The sign bit of a word, by its value. -/
theorem getLsbD_15_iff (v : Word) : v.getLsbD 15 = true ↔ 0x8000 ≤ v.toNat := by
  have hmsb : v.msb = v.getLsbD 15 := BitVec.msb_eq_getLsbD_last v
  rw [← hmsb, BitVec.msb_eq_true_iff_two_mul_ge]
  omega

theorem condReflects_writeReg (s : State) (r : Reg) (v : Word) : CondReflects v (s.writeReg r v) :=
  condReflects_iff.2 rfl

/-- Settles O7: the flag by sign is what COND reflects after a write of v; bit and value say the same as the sign. -/
theorem flagOfWord : Obligations.FlagOfWord := by
  intro v
  obtain ⟨hn, hz, hp⟩ := condReflects_writeReg State.reset .r0 v
  have hlt := v.isLt
  have hint := BitVec.toInt_eq_toNat_cond v
  have hneg : v.toInt < 0 ↔ 0x8000 ≤ v.toNat := by split at hint <;> omega
  have hzero : v.toInt = 0 ↔ v = 0x0000 := BitVec.toInt_inj (y := 0x0000)
  have hpos : 0 < v.toInt ↔ 0x0001 ≤ v.toNat ∧ v.toNat ≤ 0x7FFF := by split at hint <;> omega
  exact ⟨hn.trans (hneg.trans (getLsbD_15_iff v).symm), hn.trans hneg, hz.trans hzero, hp.trans hpos, hn, hp⟩

/-! ### Canonical memories (log 1) -/

theorem Memory.read_of_mem {m : Memory} (h : m.Pairwise (fun c d => c.1 < d.1)) {a : Nat} {v : Word}
    (hc : (a, v) ∈ m) : m.read a = v := by
  induction m with
  | nil => cases hc
  | cons d rest ih =>
    obtain ⟨b, w⟩ := d
    obtain ⟨hfirst, hrest⟩ := List.pairwise_cons.1 h
    rcases List.mem_cons.1 hc with heq | hc
    · obtain ⟨rfl, rfl⟩ := Prod.mk.inj heq
      exact if_pos rfl
    · have hlt : b < a := hfirst _ hc
      rw [Memory.read, if_neg (by omega), ih hrest hc]

theorem Memory.mem_of_read_ne_unlisted {m : Memory} {a : Nat} (h : m.read a ≠ Memory.unlisted) :
    (a, m.read a) ∈ m := by
  induction m with
  | nil => exact absurd rfl h
  | cons d rest ih =>
    obtain ⟨b, w⟩ := d
    by_cases hb : b = a
    · simp [Memory.read, hb]
    · rw [Memory.read, if_neg hb] at h ⊢
      exact List.mem_cons_of_mem _ (ih h)

/-- A canonical memory lists no cell that another, which reads alike, does not. -/
theorem Memory.subset_of_read_eq {m m' : Memory} (h : Memory.wf m)
    (hread : ∀ a : Word, m.read a.toNat = m'.read a.toNat) : m ⊆ m' := by
  rintro ⟨a, v⟩ hc
  obtain ⟨ha, hv⟩ := h.2 _ hc
  have hm : m.read a = v := Memory.read_of_mem h.1 hc
  have hword : (BitVec.ofNat 16 a).toNat = a := Nat.mod_eq_of_lt ha
  have hm' : m'.read a = v := by rw [← hm, ← hword, hread]
  exact hm' ▸ Memory.mem_of_read_ne_unlisted (hm' ▸ hv)

/-- Settles O14: they list the same cells, each in rising order. -/
theorem canonicalMemoriesAreEqual : Obligations.CanonicalMemoriesAreEqual := by
  intro m m' h h' hread
  have : Std.Irrefl (fun c d : Nat × Word => c.1 < d.1) := ⟨fun c => Nat.lt_irrefl c.1⟩
  have : Std.Antisymm (fun c d : Nat × Word => c.1 < d.1) := ⟨fun _ _ h h' => absurd h (Nat.lt_asymm h')⟩
  exact List.Subset.antisymm_of_pairwise h.1 h'.1 (Memory.subset_of_read_eq h hread)
    (Memory.subset_of_read_eq h' fun a => (hread a).symm)

end Sys2Proof.Machine
end

section
/-! SUPPORT. Memory (20_memory.md): a read's effect, a store, the poll of an instruction fetched at 0xFE00, and which
instructions change a cell. -/

namespace Sys2Proof.Machine

/-! ### A read and a store (20_memory.md R52, R53) -/

/-- A read has R52's effect, in each of the three ways it can go. -/
theorem readEffect_memRead (s : State) (a : Word) : ReadEffect a (s.memRead a).1 s (s.memRead a).2 := by
  unfold ReadEffect
  obtain ⟨ha, e⟩ | ⟨rfl, hq, e⟩ | ⟨rfl, c, rest, hq, e⟩ := memRead_cases s a
  · rw [e, if_neg ha]
    exact ⟨rfl, rfl, fun _ => rfl⟩
  · rw [e, if_pos rfl, hq]
    exact ⟨rfl, hq, by simp, fun b hb => by rw [cell_setCell, if_neg (by simpa using hb)]⟩
  · rw [e, if_pos rfl, hq]
    refine ⟨rfl, rfl, by simp [Config.kbsr, Config.kbdr], by simp, fun b hb => ?_⟩
    simp only [List.mem_cons, List.not_mem_nil, or_false, not_or] at hb
    rw [cell_setCell, cell_setCell, if_neg hb.2, if_neg hb.1]
    rfl

theorem outputKept_memRead (s : State) (a : Word) : OutputKept s (s.memRead a).2 := ⟨by simp, by simp, by simp⟩

/-- Settles O11: the effect, case by case, and the fields a read leaves alone. -/
theorem memReadEffect : Obligations.MemReadEffect := fun s a =>
  ⟨readEffect_memRead s a, readReg_memRead s a, cond_memRead s a, ⟨pc_memRead s a, run_memRead s a⟩,
    outputKept_memRead s a⟩

/-- Settles O12: a store is a raw store at every address. -/
theorem memWriteIsPlainStore : Obligations.MemWriteIsPlainStore := by
  refine fun s a v => ⟨by simp, fun b hb => ?_, _, rfl⟩
  rw [cell_memWrite, if_neg (by simpa using hb)]

/-- Settles O13: the first poll takes the character and the second finds none; neither it nor the plain read of KBDR
touches what KBDR holds. -/
theorem kbsrReadTwice : Obligations.KbsrReadTwice := by
  intro s c hq
  have hdata : Config.kbdr ≠ Config.kbsr := by decide
  rw [memRead_kbsr_cons hq]
  refine ⟨rfl, ?_⟩
  rw [memRead_kbsr_nil rfl, memRead_plain _ hdata]
  exact ⟨rfl, by simp [hdata], rfl, rfl⟩

/-! ### The fetch (20_memory.md R58, R67) -/

/-- A step away from 0xFE00 executes the word in the cell at PC, with PC incremented. -/
theorem step_plain {s : State} {w : Word} (hrun : s.run = .running) (hpc : s.pc ≠ Config.kbsr)
    (hcell : s.cell s.pc = w) : step s = exec (decode w) { s with pc := s.pc + 1 } := by
  rw [step_running hrun, fetch_plain hpc, hcell]

/-- Settles O23: the fetch reads the cell, which the store elsewhere left as the first one made it. -/
theorem storeSeenByLaterFetch : Obligations.StoreSeenByLaterFetch := by
  intro s a v b w hrun ha hb
  have hcell : ((s.memWrite a v).memWrite b w).cell a = v := by simp [Ne.symm hb]
  exact step_plain (s := { (s.memWrite a v).memWrite b w with pc := a }) hrun ha hcell

/-- A poll that finds nothing gives a branch never taken (R58). -/
theorem decode_memRead_kbsr_nil {s : State} (h : s.inQ = []) :
    decode (s.memRead Config.kbsr).1 = .br false false false 0 := by
  have hnop : decode 0x0000 = .br false false false 0 := by decide
  rw [memRead_kbsr_nil h, hnop]

/-- A poll that finds a character gives RTI (R58). -/
theorem decode_memRead_kbsr_cons {s : State} (h : s.inQ ≠ []) : decode (s.memRead Config.kbsr).1 = .rti := by
  obtain ⟨c, rest, hq⟩ := List.exists_cons_of_ne_nil h
  have hrti : decode 0x8000 = .rti := by decide
  rw [memRead_kbsr_cons hq, hrti]

/-- A branch with no condition bit is never taken (30_encoding.md R89). -/
theorem exec_br_never (off9 : BitVec 9) (s : State) : exec (.br false false false off9) s = .next s := by
  have htaken : brTaken false false false s.cond = false := by cases s.cond <;> rfl
  simp [exec, execBr, htaken]

/-- The fetch at 0xFE00 has the poll's effect, also when RUN changes after it. -/
theorem readEffect_fetch (s : State) (h : s.pc = Config.kbsr) (r : RunState) :
    ReadEffect Config.kbsr (s.memRead Config.kbsr).1 s { s.fetch.2 with run := r } := by
  rw [fetch_eq, h]
  exact (readEffect_memRead s Config.kbsr).congr rfl rfl rfl rfl

/-- Settles O16: the step is the fetch's poll, and the instruction it gives changes RUN at most. -/
theorem fetchFromKbsrPolls : Obligations.FetchFromKbsrPolls := by
  intro s hrun hpc
  have hstep : step s = exec (decode (s.memRead Config.kbsr).1) s.fetch.2 := by
    rw [step_running hrun, fetch_eq, hpc]
  have hpc' : s.fetch.2.pc = 0xFE01 := by rw [fetch_eq, hpc]; rfl
  have hregs : RegsKept s s.fetch.2 := (RegWriteAtMost.fetch s).regsKept
  have hcond : s.fetch.2.cond = s.cond := (RegWriteAtMost.fetch s).2
  have hout : OutputKept s s.fetch.2 := by rw [fetch_eq]; exact outputKept_memRead s s.pc
  by_cases hq : s.inQ = []
  · rw [decode_memRead_kbsr_nil hq, exec_br_never] at hstep
    have hrun' : s.fetch.2.run = .running := by rw [fetch_eq]; exact (run_memRead s s.pc).trans hrun
    have heffect := readEffect_fetch s hpc s.fetch.2.run
    rw [memRead_kbsr_nil hq] at heffect
    exact ⟨_, hstep, hpc', hregs, hcond, hout, fun _ => ⟨hrun', heffect⟩, fun h => absurd hq h⟩
  · rw [decode_memRead_kbsr_cons hq] at hstep
    have heffect := readEffect_fetch s hpc (.faulted .invalidOpcode)
    obtain ⟨c, rest, hq'⟩ := List.exists_cons_of_ne_nil hq
    rw [memRead_kbsr_cons hq'] at heffect
    exact ⟨_, hstep, hpc', hregs, hcond, hout, fun h => absurd h hq, fun _ => ⟨rfl, heffect⟩⟩

/-! ### Which instructions change a cell (43_load_store.md R144 to R146) -/

/-- The instruction i, executed in s, stores the register sr at the address a that ST, STI or STR computes. -/
def StoresAt (i : Instr) (s : State) (sr : Reg) (a : Word) : Prop :=
  (∃ off9, i = .st sr off9 ∧ a = s.pc + sext 9 off9) ∨
  (∃ off9, i = .sti sr off9 ∧ a = (s.memRead (s.pc + sext 9 off9)).1) ∨
  (∃ baseR off6, i = .str sr baseR off6 ∧ a = s.readReg baseR + sext 6 off6)

/-- A cell that a store changed is its target. -/
theorem eq_of_cell_memWrite_ne {s : State} {a b v : Word} (h : (s.memWrite b v).cell a ≠ s.cell a) : a = b :=
  by_contra fun hne => h (by rw [cell_memWrite, if_neg hne])

theorem cell_inTake {s t : State} {c : Byte} (h : s.inTake = some (c, t)) (a : Word) : t.cell a = s.cell a := by
  rw [(inTake_frame h).2]
  rfl

/-- A cell other than the keyboard's two changes only as the target of a store, and then holds the stored register. -/
theorem storesAt_of_cell_ne {i : Instr} {s t : State} {a : Word} (h : exec i s = .next t) (h1 : a ≠ Config.kbsr)
    (h2 : a ≠ Config.kbdr) (hne : t.cell a ≠ s.cell a) : ∃ sr, t.cell a = s.readReg sr ∧ StoresAt i s sr a := by
  cases i with
  | st sr off9 =>
    obtain rfl := Host.Outcome.next.inj h
    obtain rfl := eq_of_cell_memWrite_ne hne
    exact ⟨sr, by simp, .inl ⟨off9, rfl, rfl⟩⟩
  | str sr baseR off6 =>
    obtain rfl := Host.Outcome.next.inj h
    obtain rfl := eq_of_cell_memWrite_ne hne
    exact ⟨sr, by simp, .inr (.inr ⟨baseR, off6, rfl, rfl⟩)⟩
  | sti sr off9 =>
    obtain rfl := Host.Outcome.next.inj h
    rw [← cell_memRead s (pcRelative9 s.pc off9) h1 h2] at hne
    obtain rfl := eq_of_cell_memWrite_ne hne
    exact ⟨sr, by simp, .inr (.inl ⟨off9, rfl, rfl⟩)⟩
  | addReg | addImm | andReg | andImm | not | lea | jmp | jsr | jsrr | rti | res | trapUnassigned | trapOut
  | trapHalt => exact absurd (Host.Outcome.next.inj h ▸ rfl) hne
  | br =>
    obtain rfl := Host.Outcome.next.inj h
    split at hne <;> exact absurd rfl hne
  | ld | ldr =>
    obtain rfl := Host.Outcome.next.inj h
    exact absurd (cell_memRead s _ h1 h2) hne
  | ldi =>
    obtain rfl := Host.Outcome.next.inj h
    exact absurd ((cell_memRead _ _ h1 h2).trans (cell_memRead s _ h1 h2)) hne
  | trapGetc | trapIn =>
    simp only [exec, execTrapGetc, execTrapIn] at h
    split at h
    · next c u hc =>
      obtain rfl := Host.Outcome.next.inj h
      exact absurd (cell_inTake hc a) hne
    · simp at h
  | trapPuts | trapPutsp =>
    obtain ⟨-, -, hcell, -, -⟩ := putService_frame _ h
    exact absurd (hcell a h1 h2) hne

/-- What a poll at 0xFE00 gives as an instruction is no store. -/
theorem ne_kbsr_of_storesAt_fetch {s u : State} {sr : Reg} {a : Word}
    (h : StoresAt (decode (s.memRead s.pc).1) u sr a) : s.pc ≠ Config.kbsr := by
  intro hpc
  rw [hpc] at h
  by_cases hq : s.inQ = []
  · simp [StoresAt, decode_memRead_kbsr_nil hq] at h
  · simp [StoresAt, decode_memRead_kbsr_cons hq] at h

/-- A store's pointer and base are the same before and after the fetch increments PC. -/
theorem storesAt_incremented {i : Instr} {s : State} {p : Word} {sr : Reg} {a : Word}
    (h : StoresAt i { s with pc := p } sr a) :
    (∃ off9, i = .st sr off9 ∧ a = p + sext 9 off9) ∨
    (∃ off9, i = .sti sr off9 ∧ a = (s.memRead (p + sext 9 off9)).1) ∨
    (∃ baseR off6, i = .str sr baseR off6 ∧ a = s.readReg baseR + sext 6 off6) := by
  obtain ⟨off9, hi, ha⟩ | ⟨off9, hi, ha⟩ | ⟨baseR, off6, hi, ha⟩ := h
  · exact .inl ⟨off9, hi, ha⟩
  · rw [memRead_congr s _ s.regs p s.cond] at ha
    exact .inr (.inl ⟨off9, hi, ha⟩)
  · exact .inr (.inr ⟨baseR, off6, hi, ha⟩)

/-- Settles O54: the fetch changes the keyboard's cells at most, so the instruction changed this one; it is a store and
was therefore not fetched by a poll. -/
theorem onlyStoresChangeMemory : Obligations.OnlyStoresChangeMemory := by
  intro s t a h h1 h2 hne
  rw [step_running (running_of_step h), fetch_eq] at h
  obtain ⟨sr, hv, hs⟩ := storesAt_of_cell_ne h h1 h2 (ne_of_ne_of_eq hne (cell_memRead s s.pc h1 h2).symm)
  rw [memRead_plain s (ne_kbsr_of_storesAt_fetch hs)] at hv hs
  exact ⟨sr, hv, storesAt_incremented hs⟩

end Sys2Proof.Machine
end

section
/-! SUPPORT. Encoding (30_encoding.md): words that agree on the bits of a mask, a word as the concatenation of its
format's fields, and what decoding, encoding and the opcode table say of it; then what the words of no effect and the
illegal words do. -/

namespace Sys2Proof

/-! ### Agreement on a mask (30_encoding.md R85, R86) -/

/-- The words x and y hold the same bits wherever the mask has a one. -/
def AgreeOn {n : Nat} (mask x y : BitVec n) : Prop := x &&& mask = y &&& mask

namespace AgreeOn

theorem of_eq {n : Nat} {mask x y : BitVec n} (h : x = y) : AgreeOn mask x y := congrArg (· &&& mask) h

theorem trans_eq {n : Nat} {mask x y z : BitVec n} (h : AgreeOn mask x y) (hz : y = z) : AgreeOn mask x z := hz ▸ h

/-- Bits that the mask leaves out take any value. -/
theorem zero {n : Nat} {x y : BitVec n} : AgreeOn 0#n x y := by rw [AgreeOn, BitVec.and_zero, BitVec.and_zero]

/-- Part by part. -/
theorem append {n k : Nat} {mask x y : BitVec n} {mask' x' y' : BitVec k} (h : AgreeOn mask x y)
    (h' : AgreeOn mask' x' y') : AgreeOn (mask ++ mask') (x ++ x') (y ++ y') := by
  simp only [AgreeOn] at h h' ⊢
  rw [BitVec.and_append, BitVec.and_append, h, h']

theorem eq {n : Nat} {x y : BitVec n} (h : AgreeOn (BitVec.allOnes n) x y) : x = y := by
  simpa only [AgreeOn, BitVec.and_allOnes] using h

theorem field_eq {mask x y : Word} (h : AgreeOn mask x y) {lo len : Nat}
    (hmask : field mask lo len = BitVec.allOnes len) : field x lo len = field y lo len := by
  have hand : field (x &&& mask) lo len = field (y &&& mask) lo len := congrArg (field · lo len) h
  simp only [field] at hand hmask ⊢
  simpa only [BitVec.extractLsb'_and, hmask, BitVec.and_allOnes] using hand

theorem getLsbD_eq {mask x y : Word} (h : AgreeOn mask x y) {k : Nat} (hmask : mask.getLsbD k = true) :
    x.getLsbD k = y.getLsbD k := by
  have hand : (x &&& mask).getLsbD k = (y &&& mask).getLsbD k := congrArg (·.getLsbD k) h
  simpa only [BitVec.getLsbD_and, hmask, Bool.and_true] using hand

end AgreeOn

/-! ### A word as its fields (30_encoding.md R83) -/

/-- Two fields side by side are one field. -/
theorem field_append_field (w : Word) {hi lo m n : Nat} (h : hi = lo + n) :
    field w hi m ++ field w lo n = field w lo (m + n) := BitVec.extractLsb'_append_extractLsb'_eq_extractLsb' h

theorem field_all (w : Word) : field w 0 16 = w := BitVec.extractLsb'_eq_self

theorem getLsbD_field (w : Word) {lo len k : Nat} (hk : k < len) : (field w lo len).getLsbD k = w.getLsbD (lo + k) := by
  simp [field, hk]

/-- A field of one bit. -/
theorem ofBool_getLsbD (w : Word) (k : Nat) : BitVec.ofBool (w.getLsbD k) = field w k 1 := by
  apply BitVec.eq_of_getLsbD_eq
  intro i hi
  obtain rfl : i = 0 := by omega
  rw [getLsbD_field w hi, BitVec.getLsbD_ofBool]
  simp

theorem toBits_regA (w : Word) : (regA w).toBits = field w 9 3 := Reg.toBits_ofBits _
theorem toBits_regB (w : Word) : (regB w).toBits = field w 6 3 := Reg.toBits_ofBits _
theorem toBits_regC (w : Word) : (regC w).toBits = field w 0 3 := Reg.toBits_ofBits _

section
variable {w : Word} {o : Opcode} (ho : Opcode.ofBits (opcodeField w) = o)
include ho

theorem toBits_opcode : o.toBits = field w 12 4 := ho ▸ Opcode.toBits_ofBits _

/-- Every format: the opcode over twelve bits. -/
theorem append_fields_opcode : o.toBits ++ field w 0 12 = w := by
  rw [toBits_opcode ho, field_append_field]
  exacts [field_all w, rfl]

/-- Format PC9. -/
theorem append_fields_pc9 : o.toBits ++ (regA w).toBits ++ field w 0 9 = w := by
  rw [toBits_opcode ho, toBits_regA, field_append_field, field_append_field]
  exacts [field_all w, rfl, rfl]

/-- Format BR. -/
theorem append_fields_br : o.toBits ++ BitVec.ofBool (w.getLsbD 11) ++ BitVec.ofBool (w.getLsbD 10) ++
    BitVec.ofBool (w.getLsbD 9) ++ field w 0 9 = w := by
  rw [toBits_opcode ho, ofBool_getLsbD, ofBool_getLsbD, ofBool_getLsbD, field_append_field, field_append_field,
    field_append_field, field_append_field]
  exacts [field_all w, rfl, rfl, rfl, rfl]

/-- Formats B6, UN, JR and JSRR. -/
theorem append_fields_b6 : o.toBits ++ (regA w).toBits ++ (regB w).toBits ++ field w 0 6 = w := by
  rw [toBits_opcode ho, toBits_regA, toBits_regB, field_append_field, field_append_field, field_append_field]
  exacts [field_all w, rfl, rfl, rfl]

/-- Format OPR. -/
theorem append_fields_opr : o.toBits ++ (regA w).toBits ++ (regB w).toBits ++ field w 3 3 ++ (regC w).toBits = w := by
  rw [toBits_opcode ho, toBits_regA, toBits_regB, toBits_regC, field_append_field, field_append_field,
    field_append_field, field_append_field]
  exacts [field_all w, rfl, rfl, rfl, rfl]

/-- Format OPI, and with I = 0 also OPR. -/
theorem append_fields_opi {i : Bool} (hi : w.getLsbD 5 = i) :
    o.toBits ++ (regA w).toBits ++ (regB w).toBits ++ BitVec.ofBool i ++ field w 0 5 = w := by
  rw [toBits_opcode ho, toBits_regA, toBits_regB, ← hi, ofBool_getLsbD, field_append_field, field_append_field,
    field_append_field, field_append_field]
  exacts [field_all w, rfl, rfl, rfl, rfl]

/-- Format JS, and with L = 0 also JSRR. -/
theorem append_fields_js {l : Bool} (hl : w.getLsbD 11 = l) : o.toBits ++ BitVec.ofBool l ++ field w 0 11 = w := by
  rw [toBits_opcode ho, ← hl, ofBool_getLsbD, field_append_field, field_append_field]
  exacts [field_all w, rfl, rfl]

/-- Format TR. -/
theorem append_fields_tr : o.toBits ++ field w 8 4 ++ field w 0 8 = w := by
  rw [toBits_opcode ho, field_append_field, field_append_field]
  exacts [field_all w, rfl, rfl]

end

/-! ### The formats with ignored bits, and the bits that choose a row (30_encoding.md R83, R85, R86) -/

/-- A field of three bits whose highest is a zero agrees there with the zeros the encoder writes. -/
theorem agreeOn_zeros : ∀ x : BitVec 3, x.getLsbD 2 = false → AgreeOn 0b100 0b000 x := by
  unfold AgreeOn
  decide

section
variable {w : Word} {o : Opcode} (ho : Opcode.ofBits (opcodeField w) = o)
include ho

/-- Format RSV. -/
theorem agreeOn_opcode (x : BitVec 12) : AgreeOn 0xF000 (o.toBits ++ x) w :=
  ((AgreeOn.of_eq rfl).append .zero : AgreeOn (0xF#4 ++ 0#12) _ _).trans_eq (append_fields_opcode ho)

/-- Format UN. -/
theorem agreeOn_un (x : BitVec 6) : AgreeOn 0xFFC0 (o.toBits ++ (regA w).toBits ++ (regB w).toBits ++ x) w :=
  ((AgreeOn.of_eq rfl).append .zero : AgreeOn (0x3FF#10 ++ 0#6) _ _).trans_eq (append_fields_b6 ho)

/-- Format JR. -/
theorem agreeOn_jr (x : BitVec 3) (y : BitVec 6) : AgreeOn 0xF1C0 (o.toBits ++ x ++ (regB w).toBits ++ y) w :=
  ((((AgreeOn.of_eq rfl).append .zero).append (.of_eq rfl)).append .zero :
    AgreeOn (0xF#4 ++ 0#3 ++ 0x7#3 ++ 0#6) _ _).trans_eq (append_fields_b6 ho)

/-- Format TR. -/
theorem agreeOn_tr (x : BitVec 4) : AgreeOn 0xF0FF (o.toBits ++ x ++ field w 0 8) w :=
  (((AgreeOn.of_eq rfl).append .zero).append (.of_eq rfl) : AgreeOn (0xF#4 ++ 0#4 ++ 0xFF#8) _ _).trans_eq
    (append_fields_tr ho)

/-- Format OPR: of ir[5:3] only the flag I counts. -/
theorem agreeOn_opr (hi : w.getLsbD 5 = false) :
    AgreeOn 0xFFE7 (o.toBits ++ (regA w).toBits ++ (regB w).toBits ++ 0b000#3 ++ (regC w).toBits) w := by
  have hflag : (field w 3 3).getLsbD 2 = false := by rwa [getLsbD_field w (by omega)]
  exact (((AgreeOn.of_eq rfl).append (agreeOn_zeros _ hflag)).append (.of_eq rfl) :
    AgreeOn (0x3FF#10 ++ 0b100#3 ++ 0x7#3) _ _).trans_eq (append_fields_opr ho)

/-- Format JSRR: of ir[11:9] only the flag L counts. -/
theorem agreeOn_jsrr (hl : w.getLsbD 11 = false) (x : BitVec 6) :
    AgreeOn 0xF9C0 (o.toBits ++ 0b000#3 ++ (regB w).toBits ++ x) w := by
  have hflag : (regA w).toBits.getLsbD 2 = false := by rwa [toBits_regA, getLsbD_field w (by omega)]
  exact ((((AgreeOn.of_eq rfl).append (agreeOn_zeros _ hflag)).append (.of_eq rfl)).append .zero :
    AgreeOn (0xF#4 ++ 0b100#3 ++ 0x7#3 ++ 0#6) _ _).trans_eq (append_fields_b6 ho)

/-- The rows of ADD and AND. -/
theorem agreeOn_immediateFlag {i : Bool} (hi : w.getLsbD 5 = i) :
    AgreeOn 0xF020 (o.toBits ++ 0#3 ++ 0#3 ++ BitVec.ofBool i ++ 0#5) w :=
  (((((AgreeOn.of_eq rfl).append .zero).append .zero).append (.of_eq rfl)).append .zero :
    AgreeOn (0xF#4 ++ 0#3 ++ 0#3 ++ 1#1 ++ 0#5) _ _).trans_eq (append_fields_opi ho hi)

/-- The rows of JSR and JSRR. -/
theorem agreeOn_longFlag {l : Bool} (hl : w.getLsbD 11 = l) :
    AgreeOn 0xF800 (o.toBits ++ BitVec.ofBool l ++ 0#11) w :=
  ((AgreeOn.of_eq rfl).append .zero : AgreeOn (0x1F#5 ++ 0#11) _ _).trans_eq (append_fields_js ho hl)

end

/-! ### The trap codes (44_trap.md R155, R162) -/

/-- R155: the six services by their codes. -/
def trapServices : List (Byte × Instr) :=
  [(0x20, .trapGetc), (0x21, .trapOut), (0x22, .trapPuts), (0x23, .trapIn), (0x24, .trapPutsp), (0x25, .trapHalt)]

/-- What a trap code stands for: a service, or nothing. -/
theorem decodeTrap_cases (code : Byte) :
    (code, decodeTrap code) ∈ trapServices ∨ trapAssigned code = false ∧ decodeTrap code = .trapUnassigned code := by
  cases h : trapAssigned code with
  | false => exact .inr ⟨rfl, decodeTrap_unassigned h⟩
  | true =>
    simp only [trapAssigned, Bool.and_eq_true, decide_eq_true_eq] at h
    have hcode : ∃ s ∈ trapServices, code.toNat = s.1.toNat := by
      simp only [trapServices, List.exists_mem_cons_iff, BitVec.ofNat_eq_ofNat, BitVec.toNat_ofNat]
      omega
    obtain ⟨s, hs, heq⟩ := hcode
    obtain rfl := BitVec.eq_of_toNat_eq heq
    have hservice : ∀ s ∈ trapServices, decodeTrap s.1 = s.2 := by decide
    exact .inl ((hservice s hs).symm ▸ hs)

theorem wf_decodeTrap (code : Byte) : (decodeTrap code).wf = true := by
  have hservice : ∀ s ∈ trapServices, s.2.wf = true := by decide
  obtain hs | ⟨hcode, hd⟩ := decodeTrap_cases code
  · exact hservice _ hs
  · rw [hd, Instr.wf, hcode]
    rfl

theorem encode_decodeTrap (code : Byte) : encode (decodeTrap code) = encodeTrap code := by
  have hservice : ∀ s ∈ trapServices, encode s.2 = encodeTrap s.1 := by decide
  obtain hs | ⟨-, hd⟩ := decodeTrap_cases code
  · exact hservice _ hs
  · exact congrArg encode hd

theorem ignoredMask_decodeTrap (code : Byte) : ignoredMask (decodeTrap code) = 0x0F00 := by
  have hservice : ∀ s ∈ trapServices, ignoredMask s.2 = 0x0F00 := by decide
  obtain hs | ⟨-, hd⟩ := decodeTrap_cases code
  · exact hservice _ hs
  · rw [hd, ignoredMask]

/-! ### Decode and encode (30_encoding.md R83 to R86) -/

/-- Settles O1: format by format, the fields of the word the encoder builds are the ones it was given. -/
theorem decodeOfEncode : Obligations.DecodeOfEncode := by
  intro i
  cases i with
  | br n z p off9 => exact Laws.RoundTrip.br n z p off9
  | addReg dr sr1 sr2 => exact Laws.RoundTrip.addReg dr sr1 sr2
  | addImm dr sr1 imm5 => exact Laws.RoundTrip.addImm dr sr1 imm5
  | ld dr off9 => exact Laws.RoundTrip.ld dr off9
  | st sr off9 => exact Laws.RoundTrip.st sr off9
  | jsrr baseR => exact Laws.RoundTrip.jsrr baseR
  | jsr off11 => exact Laws.RoundTrip.jsr off11
  | andReg dr sr1 sr2 => exact Laws.RoundTrip.andReg dr sr1 sr2
  | andImm dr sr1 imm5 => exact Laws.RoundTrip.andImm dr sr1 imm5
  | ldr dr baseR off6 => exact Laws.RoundTrip.ldr dr baseR off6
  | str sr baseR off6 => exact Laws.RoundTrip.str sr baseR off6
  | rti => exact Laws.RoundTrip.rti
  | not dr sr1 => exact Laws.RoundTrip.not dr sr1
  | ldi dr off9 => exact Laws.RoundTrip.ldi dr off9
  | sti sr off9 => exact Laws.RoundTrip.sti sr off9
  | jmp baseR => exact Laws.RoundTrip.jmp baseR
  | res => exact Laws.RoundTrip.res
  | lea dr off9 => exact Laws.RoundTrip.lea dr off9
  | trapGetc => exact Laws.RoundTrip.trapGetc
  | trapOut => exact Laws.RoundTrip.trapOut
  | trapPuts => exact Laws.RoundTrip.trapPuts
  | trapIn => exact Laws.RoundTrip.trapIn
  | trapPutsp => exact Laws.RoundTrip.trapPutsp
  | trapHalt => exact Laws.RoundTrip.trapHalt
  | trapUnassigned code => exact Laws.RoundTrip.trapUnassigned code

theorem wf_decode (w : Word) : (decode w).wf = true := by
  unfold decode
  cases Opcode.ofBits (opcodeField w) with
  | br | ld | st | ldr | str | rti | not | ldi | sti | jmp | res | lea => rfl
  | add | and | jsr => dsimp only; split <;> rfl
  | trap => exact wf_decodeTrap _

/-- The word of a decoded instruction: its format's fields are the word's, its other bits are ignored. -/
theorem agreeOn_encode_decode (w : Word) : AgreeOn (~~~ ignoredMask (decode w)) (encode (decode w)) w := by
  cases ho : Opcode.ofBits (opcodeField w) with
  | br =>
    simp only [decode, ho]
    exact .of_eq (append_fields_br ho)
  | ld | st | ldi | sti | lea =>
    simp only [decode, ho]
    exact .of_eq (append_fields_pc9 ho)
  | ldr | str =>
    simp only [decode, ho]
    exact .of_eq (append_fields_b6 ho)
  | not =>
    simp only [decode, ho, ignoredMask]
    exact agreeOn_un ho _
  | jmp =>
    simp only [decode, ho, ignoredMask]
    exact agreeOn_jr ho _ _
  | rti | res =>
    simp only [decode, ho, ignoredMask]
    exact agreeOn_opcode ho _
  | add | and =>
    cases hi : w.getLsbD 5 with
    | false =>
      simp only [decode, ho, hi, Bool.false_eq_true, if_false, ignoredMask]
      exact agreeOn_opr ho hi
    | true =>
      simp only [decode, ho, hi, if_true]
      have hfields := append_fields_opi ho hi
      exact .of_eq hfields
  | jsr =>
    cases hl : w.getLsbD 11 with
    | false =>
      simp only [decode, ho, hl, Bool.false_eq_true, if_false, ignoredMask]
      exact agreeOn_jsrr ho hl _
    | true =>
      simp only [decode, ho, hl, if_true]
      have hfields := append_fields_js ho hl
      exact .of_eq hfields
  | trap =>
    simp only [decode, ho, encode_decodeTrap, ignoredMask_decodeTrap]
    exact agreeOn_tr ho _

/-- Settles O2, by the format of each opcode. -/
theorem encodeOfDecode : Obligations.EncodeOfDecode := fun w => ⟨wf_decode w, agreeOn_encode_decode w⟩

/-! ### Ignored bits (30_encoding.md R85) -/

/-- Flipping bits that the mask leaves out. -/
theorem AgreeOn.xor {n : Nat} {m ignored : BitVec n} (h : m &&& ignored = m) (w : BitVec n) :
    AgreeOn (~~~ ignored) (w ^^^ m) w := by
  apply BitVec.eq_of_getLsbD_eq
  intro k hk
  have hbit : (m.getLsbD k && ignored.getLsbD k) = m.getLsbD k := by rw [← BitVec.getLsbD_and, h]
  rw [BitVec.getLsbD_and, BitVec.getLsbD_and, BitVec.getLsbD_xor, BitVec.getLsbD_not, ← hbit]
  cases ignored.getLsbD k <;> simp

/-- The opcode is no ignored bit of any format. -/
theorem field_not_ignoredMask_opcode (i : Instr) : field (~~~ ignoredMask i) 12 4 = BitVec.allOnes 4 := by
  cases i <;> simp only [ignoredMask] <;> decide

/-- A word that agrees with w outside the ignored bits of w's format holds the same fields. -/
theorem decode_eq_of_agreeOn {w w' : Word} (h : AgreeOn (~~~ ignoredMask (decode w)) w' w) : decode w' = decode w := by
  have hop : opcodeField w' = opcodeField w := h.field_eq (field_not_ignoredMask_opcode _)
  have hall : ignoredMask (decode w) = 0 → w' = w := fun hzero => by rw [hzero] at h; exact h.eq
  cases ho : Opcode.ofBits (opcodeField w) with
  | br | ld | st | ldi | sti | lea | ldr | str =>
    exact congrArg decode (hall (by simp only [decode, ho, ignoredMask]))
  | rti | res => simp only [decode, hop, ho]
  | not =>
    simp only [decode, ho, ignoredMask] at h
    have ha : field w' 9 3 = field w 9 3 := h.field_eq (by decide)
    have hb : field w' 6 3 = field w 6 3 := h.field_eq (by decide)
    simp only [decode, hop, ho, regA, regB, ha, hb]
  | jmp =>
    simp only [decode, ho, ignoredMask] at h
    have hb : field w' 6 3 = field w 6 3 := h.field_eq (by decide)
    simp only [decode, hop, ho, regB, hb]
  | add | and =>
    cases hi : w.getLsbD 5 with
    | false =>
      simp only [decode, ho, hi, Bool.false_eq_true, if_false, ignoredMask] at h
      have hi' : w'.getLsbD 5 = false := (h.getLsbD_eq (by decide)).trans hi
      have ha : field w' 9 3 = field w 9 3 := h.field_eq (by decide)
      have hb : field w' 6 3 = field w 6 3 := h.field_eq (by decide)
      have hc : field w' 0 3 = field w 0 3 := h.field_eq (by decide)
      simp only [decode, hop, ho, hi', hi, Bool.false_eq_true, if_false, regA, regB, regC, ha, hb, hc]
    | true => exact congrArg decode (hall (by simp only [decode, ho, hi, if_true, ignoredMask]))
  | jsr =>
    cases hl : w.getLsbD 11 with
    | false =>
      simp only [decode, ho, hl, Bool.false_eq_true, if_false, ignoredMask] at h
      have hl' : w'.getLsbD 11 = false := (h.getLsbD_eq (by decide)).trans hl
      have hb : field w' 6 3 = field w 6 3 := h.field_eq (by decide)
      simp only [decode, hop, ho, hl', hl, Bool.false_eq_true, if_false, regB, hb]
    | true => exact congrArg decode (hall (by simp only [decode, ho, hl, if_true, ignoredMask]))
  | trap =>
    simp only [decode, ho, ignoredMask_decodeTrap] at h
    have hcode : field w' 0 8 = field w 0 8 := h.field_eq (by decide)
    simp only [decode, hop, ho, hcode]

/-- Settles O3: the flipped bits are outside every field the decoder looks at. -/
theorem decodeIgnoresOtherBits : Obligations.DecodeIgnoresOtherBits := fun w _ h =>
  decode_eq_of_agreeOn (.xor h w)

/-! ### The opcode table (30_encoding.md R86) -/

/-- A list whose entries exclude each other keeps, filtered, the one that holds. -/
theorem filter_eq_singleton_of_pairwise {α : Type} {p : α → Bool} {a : α} {l : List α}
    (hl : l.Pairwise fun x y => ¬ (p x = true ∧ p y = true)) (ha : a ∈ l) (hp : p a = true) : l.filter p = [a] := by
  induction l with
  | nil => cases ha
  | cons b l ih =>
    obtain ⟨hb, hl⟩ := List.pairwise_cons.1 hl
    rcases List.mem_cons.1 ha with rfl | ha
    · have hrest : l.filter p = [] := List.filter_eq_nil_iff.2 fun x hx hpx => hb x hx ⟨hp, hpx⟩
      rw [List.filter_cons_of_pos hp, hrest]
    · have hpb : ¬ p b = true := fun hpb => hb a ha ⟨hpb, hp⟩
      rw [List.filter_cons_of_neg hpb, ih hl ha]

/-- The rows are pairwise disjoint: two of them fix some bit differently. -/
theorem opcodeTable_disjoint (w : Word) :
    opcodeTable.Pairwise fun r q => ¬ (w &&& r.1 = r.2.1 ∧ w &&& q.1 = q.2.1) := by
  have hbits : opcodeTable.Pairwise fun r q => r.2.1 &&& q.1 ≠ q.2.1 &&& r.1 := by decide
  refine hbits.imp fun {r q} hne ⟨hr, hq⟩ => hne ?_
  rw [← hr, ← hq, BitVec.and_assoc, BitVec.and_assoc, BitVec.and_comm r.1]

/-- A row matches a word when it matches one that agrees with it on the row's mask. -/
theorem AgreeOn.exists_row {mask v w : Word} {name : String} (h : AgreeOn mask v w)
    (hrow : ∃ r ∈ opcodeTable, r.2.2 = name ∧ mask &&& r.1 = r.1 ∧ v &&& r.1 = r.2.1) :
    ∃ r ∈ opcodeTable, r.2.2 = name ∧ w &&& r.1 = r.2.1 := by
  obtain ⟨r, hr, hname, hmask, hv⟩ := hrow
  refine ⟨r, hr, hname, ?_⟩
  calc w &&& r.1 = w &&& mask &&& r.1 := by rw [BitVec.and_assoc, hmask]
    _ = v &&& mask &&& r.1 := by rw [← show v &&& mask = w &&& mask from h]
    _ = r.2.1 := by rw [BitVec.and_assoc, hmask, hv]

/-- The 250 unassigned codes and the six services, each by its row. -/
theorem exists_row_trap : ∀ code : Byte, ∃ r ∈ trapRows, r.2.2 = (decodeTrap code).mnemonic ∧
    0xF0FF &&& r.1 = r.1 ∧ encodeTrap code &&& r.1 = r.2.1 := by decide

/-- Some row of the decoded instruction's matches. -/
theorem exists_row_decode (w : Word) : ∃ r ∈ opcodeTable, r.2.2 = (decode w).mnemonic ∧ w &&& r.1 = r.2.1 := by
  cases ho : Opcode.ofBits (opcodeField w) with
  | br | ld | st | ldi | sti | lea | ldr | str | not | jmp | rti | res =>
    simp only [decode, ho, Instr.mnemonic]
    exact (agreeOn_opcode ho 0).exists_row (by decide)
  | add | and =>
    cases hi : w.getLsbD 5 with
    | false | true =>
      simp only [decode, ho, hi, Bool.false_eq_true, if_false, if_true, Instr.mnemonic]
      exact (agreeOn_immediateFlag ho hi).exists_row (by decide)
  | jsr =>
    cases hl : w.getLsbD 11 with
    | false | true =>
      simp only [decode, ho, hl, Bool.false_eq_true, if_false, if_true, Instr.mnemonic]
      exact (agreeOn_longFlag ho hl).exists_row (by decide)
  | trap =>
    obtain ⟨r, hr, hrow⟩ := exists_row_trap (field w 0 8)
    simp only [decode, ho]
    exact (agreeOn_tr ho 0).exists_row ⟨r, List.mem_append_right _ hr, hrow⟩

/-- Settles O4: a row of the decoded instruction's matches, and the rows exclude each other. -/
theorem oneTableRowMatches : Obligations.OneTableRowMatches := by
  intro w
  obtain ⟨r, hr, hname, hmatch⟩ := exists_row_decode w
  have hfilter : opcodeTable.filter (fun r => w &&& r.1 = r.2.1) = [r] :=
    filter_eq_singleton_of_pairwise (by simpa using opcodeTable_disjoint w) hr (decide_eq_true hmatch)
  rw [hfilter, List.map_singleton, hname]

/-- Settles O5, word by word. -/
theorem sampleWordsDecode : Obligations.SampleWordsDecode := by
  unfold Obligations.SampleWordsDecode
  decide

/-! ### Words of no effect and illegal words (30_encoding.md R88, R89) -/

/-- An opcode by the word's value (R81). -/
theorem ofBits_opcodeField {w : Word} {o : Opcode} (h : w.toNat / 0x1000 = o.toBits.toNat) :
    Opcode.ofBits (opcodeField w) = o := by
  have hlt := o.toBits.isLt
  have hfield : opcodeField w = o.toBits := by
    apply BitVec.eq_of_toNat_eq
    rw [opcodeField, toNat_field]
    omega
  rw [hfield, Opcode.ofBits_toBits]

/-- R89: BR with no condition bit. -/
theorem decode_nop {w : Word} (h : w.toNat < 0x0200) : decode w = .br false false false (field w 0 9) := by
  have hw : w.toNat = ((((Opcode.toBits .br).toNat * 2 + false.toNat) * 2 + false.toNat) * 2 + false.toNat) * 512 +
      (field w 0 9).toNat := by
    have hop : (Opcode.toBits .br).toNat = 0 := rfl
    rw [toNat_field, hop, Bool.toNat_false]
    omega
  obtain ⟨ho, hn, hz, hp, -⟩ := fields_br hw
  simp only [decode, ho, Opcode.ofBits_toBits, hn, hz, hp]

theorem decode_rti {w : Word} (h : w.toNat / 0x1000 = 0x8) : decode w = .rti := by
  have ho : Opcode.ofBits (opcodeField w) = .rti := ofBits_opcodeField h
  simp only [decode, ho]

theorem decode_res {w : Word} (h : w.toNat / 0x1000 = 0xD) : decode w = .res := by
  have ho : Opcode.ofBits (opcodeField w) = .res := ofBits_opcodeField h
  simp only [decode, ho]

/-- R88: TRAP with a code that names no service. -/
theorem decode_trapUnassigned {w : Word} (h : 0xF000 ≤ w.toNat)
    (hcode : w.toNat % 256 < 0x20 ∨ 0x25 < w.toNat % 256) : decode w = .trapUnassigned (field w 0 8) := by
  have hlt := w.isLt
  have ho : Opcode.ofBits (opcodeField w) = .trap := ofBits_opcodeField (show w.toNat / 0x1000 = 0xF by omega)
  have hfield : (field w 0 8).toNat = w.toNat % 256 := by
    rw [toNat_field]
    omega
  have hnone : trapAssigned (field w 0 8) = false := by
    simp only [trapAssigned, hfield, Bool.and_eq_false_iff, decide_eq_false_iff_not]
    omega
  simp only [decode, ho, decodeTrap_unassigned hnone]

end Sys2Proof

namespace Sys2Proof.Machine

/-- Settles O20: the word is a branch never taken. -/
theorem nopWordsOnlyAdvancePc : Obligations.NopWordsOnlyAdvancePc := by
  intro s hrun hpc hword
  rw [step_plain hrun hpc rfl, decode_nop hword, exec_br_never]

/-- Settles O21: the word's opcode is RTI or RES. -/
theorem reservedWordsFault : Obligations.ReservedWordsFault := by
  refine ⟨fun _ => rfl, fun _ => rfl, fun s hrun hpc hword => ?_⟩
  rw [step_plain hrun hpc rfl]
  obtain h | h := hword
  · rw [decode_rti h]
    rfl
  · rw [decode_res h]
    rfl

/-- Settles O22: the word is a TRAP whose code names no service. -/
theorem unassignedTrapWordsFault : Obligations.UnassignedTrapWordsFault := by
  refine ⟨fun _ _ => rfl, fun s hrun hpc hword hcode => ?_⟩
  rw [step_plain hrun hpc rfl, decode_trapUnassigned hword hcode]
  rfl

end Sys2Proof.Machine
end

section
/-! SUPPORT. The loop (40_loop.md R110 to R113): when a machine has a step, what the step executes, the ways out of
RUNNING, and the wait of GETC and IN. -/

namespace Sys2Proof.Machine

/-! ### When there is a step, and what it executes (40_loop.md R110, R113) -/

theorem step_halted {s : State} (h : s.run = .halted) : step s = .fault .halted := by simp [step, h]

theorem step_faulted {s : State} {k : ExceptionKind} (h : s.run = .faulted k) : step s = .fault (.faulted k) := by
  simp [step, h]

/-- Settles O17: RUN decides whether there is a step. -/
theorem noStepUnlessRunning : Obligations.NoStepUnlessRunning :=
  fun _ => ⟨step_halted, fun _ => step_faulted, fun _ => running_of_step⟩

/-- Settles O15: the step of a running machine, with the fetch written out; away from 0xFE00 the fetch is plain. -/
theorem stepRunsDecodedInstruction : Obligations.StepRunsDecodedInstruction := by
  refine ⟨fun s hrun => ?_, fun s i hrun hpc hi => ?_⟩
  · rw [step_running hrun, fetch_eq]
  · rw [step_plain hrun hpc rfl, hi]

/-! ### The ways out of RUNNING (40_loop.md R112) -/

/-- RUN after an instruction, from RUN before it: HALT stops the machine, the reserved opcodes and an unassigned trap
code fault it, and every other instruction leaves RUN as it was. -/
def runAfter : Instr → RunState → RunState
  | .trapHalt, _ => .halted
  | .rti, _ | .res, _ => .faulted .invalidOpcode
  | .trapUnassigned _, _ => .faulted .invalidTrapCode
  | _, r => r

theorem run_inTake {s t : State} {c : Byte} (h : s.inTake = some (c, t)) : t.run = s.run := by
  rw [(inTake_frame h).2]

theorem run_exec {i : Instr} {s t : State} (h : exec i s = .next t) : t.run = runAfter i s.run := by
  cases i with
  | addReg | addImm | andReg | andImm | not | lea | jmp | jsr | jsrr | st | str | rti | res | trapUnassigned | trapOut
  | trapHalt => exact Host.Outcome.next.inj h ▸ rfl
  | br =>
    obtain rfl := Host.Outcome.next.inj h
    split <;> rfl
  | ld | ldr | sti => exact Host.Outcome.next.inj h ▸ run_memRead s _
  | ldi => exact Host.Outcome.next.inj h ▸ (run_memRead _ _).trans (run_memRead s _)
  | trapGetc | trapIn =>
    simp only [exec, execTrapGetc, execTrapIn] at h
    split at h
    · next c u hc =>
      have hu := run_inTake hc
      exact Host.Outcome.next.inj h ▸ hu
    · simp at h
  | trapPuts | trapPutsp =>
    obtain ⟨-, -, -, -, ht⟩ := putService_frame _ h
    rw [ht]
    rfl

/-- A step of a running machine: the fetch leaves RUN alone, so the instruction decides. -/
theorem run_step {s t : State} (hrun : s.run = .running) (h : step s = .next t) :
    t.run = runAfter (decode (s.memRead s.pc).1) .running := by
  rw [step_running hrun, fetch_eq] at h
  rw [run_exec h]
  exact congrArg (runAfter _) ((run_memRead s s.pc).trans hrun)

theorem runAfter_running_eq_halted_iff {i : Instr} : runAfter i .running = .halted ↔ i = .trapHalt := by
  cases i <;> simp [runAfter]

theorem runAfter_running_eq_invalidOpcode_iff {i : Instr} :
    runAfter i .running = .faulted .invalidOpcode ↔ i = .rti ∨ i = .res := by
  cases i <;> simp [runAfter]

theorem runAfter_running_eq_invalidTrapCode_iff {i : Instr} :
    runAfter i .running = .faulted .invalidTrapCode ↔ ∃ code, i = .trapUnassigned code := by
  cases i <;> simp [runAfter]

/-- Settles O18: RUN after the step is a function of the instruction fetched, inverted at each value. -/
theorem leavingRunning : Obligations.LeavingRunning := by
  intro s t hrun h
  rw [run_step hrun h]
  exact ⟨runAfter_running_eq_halted_iff, runAfter_running_eq_invalidOpcode_iff,
    runAfter_running_eq_invalidTrapCode_iff⟩

/-! ### The wait for input (40_loop.md R113 d, 44_trap.md R156, R159) -/

theorem exec_trapGetc_nil {s : State} (h : s.inQ = []) : exec .trapGetc s = .fault .waitingForInput := by
  simp only [exec, execTrapGetc, inTake_nil h]

theorem exec_trapGetc_cons {s : State} {c : Byte} {rest : List Byte} (h : s.inQ = c :: rest) :
    exec .trapGetc s = .next (({ s with inQ := rest } : State).writeReg .r0 (zext c)) := by
  simp only [exec, execTrapGetc, inTake_cons h]

/-- The prompt IN writes first gives it no input. -/
theorem exec_trapIn_nil {s : State} (h : s.inQ = []) : exec .trapIn s = .fault .waitingForInput := by
  have hprompt : (s.outBytes s.texts.inPrompt).inQ = [] := h
  simp only [exec, execTrapIn, inTake_nil hprompt]

theorem exec_trapIn_cons {s : State} {c : Byte} {rest : List Byte} (h : s.inQ = c :: rest) :
    exec .trapIn s =
      .next (({ s.outBytes s.texts.inPrompt with inQ := rest } : State).writeReg .r0 (zext c)).outFlush := by
  have hprompt : (s.outBytes s.texts.inPrompt).inQ = c :: rest := h
  simp only [exec, execTrapIn, inTake_cons hprompt]

/-- Settles O42: with an empty input neither has a step; what arrives is then all that is pending, and each takes the
first of it. -/
theorem getcAndInWaitForInput : Obligations.GetcAndInWaitForInput := by
  intro s hq
  refine ⟨exec_trapGetc_nil hq, exec_trapIn_nil hq, fun c cs => ?_⟩
  have harrived : (s.arrive (c :: cs)).inQ = c :: cs := by rw [inQ_arrive, hq, List.nil_append]
  exact ⟨⟨_, exec_trapGetc_cons harrived, rfl, by simp⟩, ⟨_, exec_trapIn_cons harrived, rfl, by simp⟩⟩

/-- Every instruction has a next state from every state, but GETC and IN with an empty input. -/
theorem exec_next_or_waits (i : Instr) (s : State) :
    (∃ t, exec i s = .next t) ∨
    (exec i s = .fault .waitingForInput ∧ s.inQ = [] ∧ (i = .trapGetc ∨ i = .trapIn)) := by
  cases i with
  | br | addReg | addImm | andReg | andImm | not | lea | jmp | jsr | jsrr | ld | ldr | ldi | st | str | sti | rti | res
  | trapUnassigned | trapOut | trapHalt => exact .inl ⟨_, rfl⟩
  | trapPuts | trapPutsp =>
    obtain ⟨t, -, ht⟩ := putService_completes _ s
    exact .inl ⟨_, ht⟩
  | trapGetc =>
    cases hq : s.inQ with
    | nil => exact .inr ⟨exec_trapGetc_nil hq, rfl, .inl rfl⟩
    | cons c rest => exact .inl ⟨_, exec_trapGetc_cons hq⟩
  | trapIn =>
    cases hq : s.inQ with
    | nil => exact .inr ⟨exec_trapIn_nil hq, rfl, .inr rfl⟩
    | cons c rest => exact .inl ⟨_, exec_trapIn_cons hq⟩

/-- Settles O19: at 0xFE00 the poll gives an instruction that has a next state; elsewhere the fetch leaves the input as
it is, so only GETC and IN can wait. -/
theorem runningMachineStepsUnlessWaiting : Obligations.RunningMachineStepsUnlessWaiting := by
  intro s hrun
  by_cases hpc : s.pc = Config.kbsr
  · obtain ⟨t, ht, -⟩ := fetchFromKbsrPolls s hrun hpc
    exact .inl ⟨t, ht⟩
  · rw [step_plain hrun hpc rfl]
    exact exec_next_or_waits (decode (s.cell s.pc)) { s with pc := s.pc + 1 }

end Sys2Proof.Machine
end

section
/-! SUPPORT. Arithmetic and logic (41_alu.md R120 to R124): each instruction is one register write, so a claim about it is
the value written and the frame of that write. -/

namespace Sys2Proof.Machine

/-! ### One register write (10_state.md R22) -/

theorem readReg_writeReg_self (s : State) (d : Reg) (v : Word) : (s.writeReg d v).readReg d = v := by simp

/-- The register write sets COND from what it wrote and touches nothing else. -/
theorem writeReg_frame (s : State) (d : Reg) (v : Word) :
    CondReflects ((s.writeReg d v).readReg d) (s.writeReg d v) ∧ RegsKeptBut d s (s.writeReg d v) ∧
    PcRunKept s (s.writeReg d v) ∧ MemKept s (s.writeReg d v) ∧ IoKept s (s.writeReg d v) := by
  have hwrite := RegWriteAtMost.writeReg s d v
  exact ⟨condReflects_iff.2 hwrite.cond_eq, hwrite.regsKeptBut, ⟨rfl, rfl⟩, fun _ => rfl, rfl, rfl, rfl, rfl⟩

/-! ### Addition (41_alu.md R120, R121) -/

/-- Settles O24: one register write, of the words' sum. -/
theorem addRegisterForm : Obligations.AddRegisterForm := by
  refine fun dr sr1 sr2 s => ⟨_, rfl, ?_, writeReg_frame s dr _⟩
  rw [readReg_writeReg_self]
  exact BitVec.toNat_add _ _

/-- Settles O25: one register write, of the sum with the sign-extended immediate. -/
theorem addImmediateForm : Obligations.AddImmediateForm := by
  refine fun dr sr1 imm5 s => ⟨_, rfl, ?_, writeReg_frame s dr _⟩
  rw [readReg_writeReg_self]
  exact toNat_add_sext _ imm5 (by omega) (by omega)

/-! ### Logic (41_alu.md R122 to R124) -/

/-- The bits of an immediate: its own up to its sign bit, and the sign bit above. -/
theorem getLsbD_immediate (imm5 : BitVec 5) {k : Nat} (hk : k < 16) :
    (immediate imm5).getLsbD k = imm5.getLsbD (min k 4) := by
  rw [immediate, getLsbD_sext imm5 (by omega) (by omega) hk]
  split
  · rw [Nat.min_eq_left (by omega)]
  · rw [Nat.min_eq_right (by omega)]

/-- Settles O26: one register write, of the words' conjunction. -/
theorem andRegisterForm : Obligations.AndRegisterForm := by
  refine fun dr sr1 sr2 s => ⟨_, rfl, fun k => ?_, writeReg_frame s dr _⟩
  rw [readReg_writeReg_self]
  exact BitVec.getLsbD_and

/-- Settles O27: one register write, of the conjunction with the immediate's bits; from bit 16 on the source has none. -/
theorem andImmediateForm : Obligations.AndImmediateForm := by
  refine fun dr sr1 imm5 s => ⟨_, rfl, fun k => ?_, writeReg_frame s dr _⟩
  rw [readReg_writeReg_self, BitVec.getLsbD_and]
  by_cases hk : k < 16
  · rw [getLsbD_immediate imm5 hk]
  · rw [BitVec.getLsbD_of_ge (s.readReg sr1) k (by omega), Bool.false_and, Bool.false_and]

/-- Settles O28: one register write, of the complement. -/
theorem notComplements : Obligations.NotComplements := by
  refine fun dr sr1 s => ⟨_, rfl, ?_, writeReg_frame s dr _⟩
  rw [readReg_writeReg_self]
  exact BitVec.toNat_not

end Sys2Proof.Machine
end

section
/-! SUPPORT. Control transfer (42_control.md R130 to R133): BR and JMP are one write of PC, JSR and JSRR one write of R7
and then one of PC, so a claim about each is its target and the frame of those writes. -/

namespace Sys2Proof.Machine

/-! ### What a transfer leaves unchanged (10_state.md R22, R26) -/

/-- A PC write touches nothing else. -/
theorem writePc_frame (s : State) (v : Word) :
    RegsKept s (s.writePc v) ∧ (s.writePc v).cond = s.cond ∧ (s.writePc v).run = s.run ∧ MemKept s (s.writePc v) ∧
    IoKept s (s.writePc v) :=
  ⟨fun _ => rfl, rfl, rfl, fun _ => rfl, rfl, rfl, rfl, rfl⟩

/-- A call, to whatever target: the return address in R7 and in COND, and nothing else but PC. -/
theorem call_frame (s : State) (target : Word) :
    CondReflects s.pc ((s.writeReg .r7 s.pc).writePc target) ∧
    RegsKeptBut .r7 s ((s.writeReg .r7 s.pc).writePc target) ∧
    ((s.writeReg .r7 s.pc).writePc target).run = s.run ∧ MemKept s ((s.writeReg .r7 s.pc).writePc target) ∧
    IoKept s ((s.writeReg .r7 s.pc).writePc target) := by
  obtain ⟨-, hregs, ⟨-, hrun⟩, hmem, hio⟩ := writeReg_frame s .r7 s.pc
  exact ⟨condReflects_writeReg s .r7 s.pc, hregs, hrun, hmem, hio⟩

/-! ### Branch (42_control.md R130) -/

/-- The branch test: the bit selected for the flag that COND holds. -/
theorem brTaken_iff {n z p : Bool} {c : Cond} :
    brTaken n z p c = true ↔ (n = true ∧ c = .n) ∨ (z = true ∧ c = .z) ∨ (p = true ∧ c = .p) := by
  cases c <;> simp [brTaken]

/-- The document's form of the test, with COND's encoding of 10_state.md R28: `bits` has one bit set, the place of the
flag's own condition bit. -/
theorem brTaken_iff_and_bits (n z p : Bool) (c : Cond) :
    brTaken n z p c = true ↔ (BitVec.ofBool n ++ BitVec.ofBool z ++ BitVec.ofBool p) &&& c.bits ≠ 0 := by
  cases c with
  | n | z | p =>
    revert n z p
    decide

/-- BR as one PC write: of its target when taken, of the PC it finds otherwise. -/
theorem exec_br (n z p : Bool) (off9 : BitVec 9) (s : State) :
    exec (.br n z p off9) s = .next (s.writePc (if brTaken n z p s.cond then pcRelative9 s.pc off9 else s.pc)) := by
  simp only [exec, execBr]
  split <;> rfl

/-- Settles O29: BR is one PC write, whose value the branch test chooses. -/
theorem branchOnCondition : Obligations.BranchOnCondition := by
  intro n z p off9 s
  refine ⟨_, exec_br n z p off9 s, fun h => ?_, fun h => ?_, brTaken_iff_and_bits n z p s.cond, writePc_frame s _⟩
  · rw [pc_writePc, if_pos (brTaken_iff.2 h)]
    exact toNat_add_sext s.pc off9 (by omega) (by omega)
  · rw [pc_writePc, if_neg (mt brTaken_iff.1 h)]

/-! ### Jump and calls (42_control.md R131 to R133) -/

/-- Settles O30: one PC write, of the base register's value. -/
theorem jumpThroughRegister : Obligations.JumpThroughRegister := fun baseR s =>
  ⟨_, rfl, rfl, writePc_frame s (s.readReg baseR)⟩

/-- Settles O31: a call whose target is the return address plus the sign-extended offset. -/
theorem callRelative : Obligations.CallRelative := fun off11 s =>
  ⟨_, rfl, readReg_writeReg_self s .r7 s.pc, toNat_add_sext s.pc off11 (by omega) (by omega), call_frame s _⟩

/-- Settles O32: a call whose target is read after R7 was written, so it is the return address where the base is R7. -/
theorem callThroughRegister : Obligations.CallThroughRegister := by
  refine fun baseR s => ⟨_, rfl, readReg_writeReg_self s .r7 s.pc, fun h => ?_, fun h => ?_, call_frame s _⟩
  · rw [pc_writePc, readReg_writeReg, if_neg h]
  · rw [pc_writePc, readReg_writeReg, if_pos h]

end Sys2Proof.Machine
end

section
/-! SUPPORT. Loads, stores and LEA (43_load_store.md R140 to R147): a load is its reads and then one register write, a
store one write of a cell after its pointer read if it has one, so a claim about each is put together from R52's effect,
R53's store and the frame of a register write. -/

namespace Sys2Proof.Machine

/-! ### A read, then a register write; a store (20_memory.md R52, R53, 10_state.md R22) -/

/-- A word loaded by one read: the register write that follows spares what the read's effect speaks of. -/
theorem readEffect_writeReg_memRead (s : State) (a : Word) (d : Reg) :
    ReadEffect a (((s.memRead a).2.writeReg d (s.memRead a).1).readReg d) s
      ((s.memRead a).2.writeReg d (s.memRead a).1) := by
  rw [readReg_writeReg_self]
  exact (readEffect_memRead s a).congr rfl rfl rfl rfl

/-- A read, then a register write: beside memory and input, which are the read's, the frame is the register write's. -/
theorem writeReg_memRead_frame (s : State) (a : Word) (d : Reg) (v : Word) :
    CondReflects (((s.memRead a).2.writeReg d v).readReg d) ((s.memRead a).2.writeReg d v) ∧
    RegsKeptBut d s ((s.memRead a).2.writeReg d v) ∧ PcRunKept s ((s.memRead a).2.writeReg d v) ∧
    OutputKept s ((s.memRead a).2.writeReg d v) := by
  obtain ⟨-, hregs, -, hpcRun, hout⟩ := memReadEffect s a
  obtain ⟨hcond, hregs', -⟩ := writeReg_frame (s.memRead a).2 d v
  exact ⟨hcond, fun r hr => (hregs' r hr).trans (hregs r), hpcRun, hout⟩

/-- A store: the one cell, and nothing else of the state. -/
theorem memWrite_frame (s : State) (a v : Word) :
    (s.memWrite a v).cell a = v ∧ MemKeptBut [a] s (s.memWrite a v) ∧ RegsKept s (s.memWrite a v) ∧
    (s.memWrite a v).cond = s.cond ∧ PcRunKept s (s.memWrite a v) ∧ IoKept s (s.memWrite a v) := by
  obtain ⟨hcell, hothers, -⟩ := memWriteIsPlainStore s a v
  exact ⟨hcell, hothers, fun _ => rfl, rfl, ⟨rfl, rfl⟩, rfl, rfl, rfl, rfl⟩

/-! ### Loads and LEA (43_load_store.md R140 to R143) -/

/-- Settles O33: one read at the PC-relative address, then the register write. -/
theorem loadPcRelative : Obligations.LoadPcRelative := fun dr off9 s =>
  ⟨_, rfl, readEffect_writeReg_memRead s (s.pc + sext 9 off9) dr, writeReg_memRead_frame s _ dr _⟩

/-- Settles O34: the second read is made in the state the pointer read leaves, which holds the registers, PC, RUN and
output of the state before it. -/
theorem loadIndirect : Obligations.LoadIndirect := by
  intro dr off9 s pointer
  obtain ⟨hpointer, hregs, -, ⟨hpc, hrun⟩, hout, hflushed, htexts⟩ := memReadEffect s (s.pc + sext 9 off9)
  obtain ⟨hcond, hregs', ⟨hpc', hrun'⟩, hout', hflushed', htexts'⟩ :=
    writeReg_memRead_frame pointer.2 pointer.1 dr (pointer.2.memRead pointer.1).1
  exact ⟨_, rfl, hpointer, readEffect_writeReg_memRead pointer.2 pointer.1 dr, hcond,
    fun r hr => (hregs' r hr).trans (hregs r), ⟨hpc'.trans hpc, hrun'.trans hrun⟩,
    hout'.trans hout, hflushed'.trans hflushed, htexts'.trans htexts⟩

/-- Settles O35: one read at the base's old value plus the offset, then the register write, to the base or not. -/
theorem loadBaseOffset : Obligations.LoadBaseOffset := fun dr baseR off6 s =>
  ⟨_, rfl, readEffect_writeReg_memRead s (s.readReg baseR + sext 6 off6) dr, writeReg_memRead_frame s _ dr _⟩

/-- Settles O36: one register write, of the PC-relative address, and no read. -/
theorem loadEffectiveAddress : Obligations.LoadEffectiveAddress := by
  refine fun dr off9 s => ⟨_, rfl, ?_, writeReg_frame s dr _⟩
  rw [readReg_writeReg_self]
  exact toNat_add_sext s.pc off9 (by omega) (by omega)

/-! ### Stores (43_load_store.md R144 to R146) -/

/-- Settles O37: one store at the PC-relative address. -/
theorem storePcRelative : Obligations.StorePcRelative := fun sr off9 s =>
  ⟨_, rfl, memWrite_frame s (s.pc + sext 9 off9) (s.readReg sr)⟩

/-- Settles O38: one store, in the state the pointer read leaves, which holds the registers, COND, PC, RUN and output of
the state before it. -/
theorem storeIndirect : Obligations.StoreIndirect := by
  intro sr off9 s pointer
  obtain ⟨hpointer, hregs, hcond, hpcRun, hout⟩ := memReadEffect s (s.pc + sext 9 off9)
  obtain ⟨hcell, hothers, -, -, -, hinput, -⟩ := memWrite_frame pointer.2 pointer.1 (pointer.2.readReg sr)
  exact ⟨_, rfl, hpointer, hcell.trans (hregs sr), hothers, hinput, hregs, hcond, hpcRun, hout⟩

/-- Settles O39: one store at the base's value plus the offset. -/
theorem storeBaseOffset : Obligations.StoreBaseOffset := fun sr baseR off6 s =>
  ⟨_, rfl, memWrite_frame s (s.readReg baseR + sext 6 off6) (s.readReg sr)⟩

end Sys2Proof.Machine
end

section
/-! SUPPORT. Trap services (44_trap.md R155 to R163): the bytes of a word, the string services as walks whose fuel does
not matter, a character taken into R0, and what no service touches. -/

namespace Sys2Proof.Machine

/-! ### The bytes of a word (44_trap.md R157, R158, R160) -/

theorem lowByte_eq (w : Word) : lowByte w = BitVec.ofNat 8 (w.toNat % 256) := by
  apply BitVec.eq_of_toNat_eq
  simp [lowByte]

theorem highByte_eq (w : Word) : highByte w = BitVec.ofNat 8 (w.toNat / 256) := by
  apply BitVec.eq_of_toNat_eq
  simp [highByte, Nat.shiftRight_eq_div_pow]

theorem highByte_eq_zero_iff (w : Word) : highByte w = 0 ↔ w.toNat / 256 = 0 := by
  have hlt : w.toNat / 256 < 256 := by omega
  rw [highByte_eq, ← BitVec.toNat_inj, BitVec.toNat_ofNat, Nat.mod_eq_of_lt hlt]
  rfl

theorem putsText_eq_flatMap (ws : List Word) : putsText ws = ws.flatMap putsBytes := by
  have hword : putsBytes = fun w => [BitVec.ofNat 8 (w.toNat % 256)] := funext fun w => by rw [putsBytes, lowByte_eq]
  rw [hword, putsText, List.map_eq_flatMap]

theorem putspBytes_eq (w : Word) : putspBytes w =
    BitVec.ofNat 8 (w.toNat % 256) :: if w.toNat / 256 = 0 then [] else [BitVec.ofNat 8 (w.toNat / 256)] := by
  rw [putspBytes, lowByte_eq]
  by_cases h : w.toNat / 256 = 0
  · rw [if_pos ((highByte_eq_zero_iff w).2 h), if_pos h]
  · rw [if_neg (mt (highByte_eq_zero_iff w).1 h), if_neg h, highByte_eq]

theorem putspText_eq_flatMap (ws : List Word) : putspText ws = ws.flatMap putspBytes := by
  rw [funext putspBytes_eq, putspText]

/-! ### The walk, whatever its fuel (44_trap.md R158, R160) -/

/-- The next state of a string service is that of a walk from R0 with any fuel that is enough. -/
theorem putService_of_putString {bytes : Word → List Byte} {n : Nat} {s t : State}
    (h : State.putString bytes n (s.readReg .r0) s = some t) : s.putService bytes = .next t.outFlush := by
  obtain ⟨u, hu, he⟩ := putService_completes bytes s
  have ht := putString_mono bytes n (max n s.stringFuel) _ h (Nat.le_max_left _ _)
  have hu' := putString_mono bytes s.stringFuel (max n s.stringFuel) _ hu (Nat.le_max_right _ _)
  obtain rfl : t = u := Option.some.inj (ht.symm.trans hu')
  exact he

/-- A walk carries the registers along without a look at them. -/
theorem putString_withRegs {bytes : Word → List Byte} {n : Nat} {a : Word} {s t : State}
    (h : State.putString bytes n a s = some t) (f : RegFile) :
    State.putString bytes n a { s with regs := f } = some { t with regs := f } := by
  obtain ⟨-, -, -, -, ht⟩ := putString_frame bytes n a h
  calc State.putString bytes n a { s with regs := f }
      = (State.putString bytes n a s).map (fun t => { t with regs := f, pc := s.pc, cond := s.cond }) :=
        putString_congr bytes n a s f s.pc s.cond
    _ = some { t with regs := f, pc := s.pc, cond := s.cond } := by rw [h]; rfl
    _ = some { t with regs := f } := by rw [ht]

/-- A string service from other registers, where R0 holds the address the walk starts at. -/
theorem putService_withRegs {bytes : Word → List Byte} {n : Nat} {a : Word} {s t : State}
    (h : State.putString bytes n a s = some t) {f : RegFile} (hf : f.get .r0 = a) :
    State.putService { s with regs := f } bytes = .next { t.outFlush with regs := f } := by
  subst hf
  exact putService_of_putString (s := { s with regs := f }) (putString_withRegs h f)

section
variable (bytes : Word → List Byte) (s : State)

/-- A string service whose first word is zero. -/
theorem putService_zero (h : (s.memRead (s.readReg .r0)).1 = 0x0000) :
    s.putService bytes = .next (s.memRead (s.readReg .r0)).2.outFlush :=
  putService_of_putString (n := 1) (by rw [putString_succ, if_pos h])

/-- A string service whose first word is not zero ends as the service does that goes on from the next address. -/
theorem putService_onward (h : (s.memRead (s.readReg .r0)).1 ≠ 0x0000) :
    ∃ t, s.putService bytes = .next t ∧
      State.putService { (s.memRead (s.readReg .r0)).2.outBytes (bytes (s.memRead (s.readReg .r0)).1) with
        regs := s.regs.set .r0 (s.readReg .r0 + 1) } bytes =
        .next { t with regs := s.regs.set .r0 (s.readReg .r0 + 1) } := by
  obtain ⟨u, hu⟩ := putString_completes bytes (s.readReg .r0 + 1)
    ((s.memRead (s.readReg .r0)).2.outBytes (bytes (s.memRead (s.readReg .r0)).1))
  refine ⟨u.outFlush, putService_of_putString (by rw [putString_succ, if_neg h]; exact hu), ?_⟩
  exact putService_withRegs hu (by simp)

end

/-- Settles O45: PUTS is the string service of a word's low byte. -/
theorem putsLoopTurn : Obligations.PutsLoopTurn := by
  intro s r onward
  rw [putsText_eq_flatMap, List.flatMap_singleton]
  exact ⟨putService_zero putsBytes s, putService_onward putsBytes s⟩

/-- Settles O46: PUTSP is the string service of a word's two bytes. -/
theorem putspLoopTurn : Obligations.PutspLoopTurn := by
  intro s r onward
  rw [putspText_eq_flatMap, List.flatMap_singleton]
  exact ⟨putService_zero putspBytes s, putService_onward putspBytes s⟩

/-! ### A string that does not touch 0xFE00 -/

theorem stringAt_cons {s : State} {a w : Word} {ws : List Word} (h : StringAt s a (w :: ws)) :
    s.cell a = w ∧ w ≠ 0 ∧ a ≠ Config.kbsr ∧ StringAt s (a + 1) ws := by
  obtain ⟨hwords, hzero, hend⟩ := h
  have hnext (k : Nat) : a + BitVec.ofNat 16 (k + 1) = a + 1 + BitVec.ofNat 16 k := by
    rw [Nat.add_comm, BitVec.ofNat_add, ← BitVec.add_assoc]
    rfl
  obtain ⟨hcell, hw, ha⟩ := hwords 0 (Nat.zero_lt_succ _)
  rw [BitVec.add_zero] at hcell ha
  rw [List.length_cons, hnext] at hzero hend
  exact ⟨hcell, hw, ha, fun k hk => hnext k ▸ hwords (k + 1) (Nat.succ_lt_succ hk), hzero, hend⟩

/-- The walk over a string that it reads without a poll: its words' bytes are output and nothing else happens. -/
theorem putString_of_stringAt (bytes : Word → List Byte) {ws : List Word} : ∀ {a : Word} {s : State}, StringAt s a ws →
    State.putString bytes (ws.length + 1) a s = some (s.outBytes (ws.flatMap bytes)) := by
  induction ws with
  | nil =>
    intro a s h
    obtain ⟨-, hzero, hend⟩ := h
    rw [List.length_nil, BitVec.add_zero] at hzero hend
    rw [putString_succ, memRead_plain s hend, if_pos hzero]
    simp
  | cons w ws ih =>
    intro a s h
    obtain ⟨hcell, hw, ha, htail⟩ := stringAt_cons h
    have htail' : StringAt (s.outBytes (bytes w)) (a + 1) ws := htail
    rw [putString_succ, memRead_plain s ha, hcell, if_neg hw]
    exact (ih htail').trans (by simp)

/-- Settles O47: the walk over the string, flushed. -/
theorem putsWritesString : Obligations.PutsWritesString := by
  intro s ws h
  rw [putsText_eq_flatMap]
  exact putService_of_putString (putString_of_stringAt putsBytes h)

/-- Settles O48: the walk over the string, flushed. -/
theorem putspWritesString : Obligations.PutspWritesString := by
  intro s ws h
  rw [putspText_eq_flatMap]
  exact putService_of_putString (putString_of_stringAt putspBytes h)

/-! ### What a string service leaves unchanged (44_trap.md R158, R160, R163) -/

/-- A string service may change the keyboard's two cells alone. -/
theorem memKeptBut_putService {bytes : Word → List Byte} {s t : State} (h : s.putService bytes = .next t) :
    MemKeptBut [Config.kbsr, Config.kbdr] s t := by
  obtain ⟨-, -, hcells, -⟩ := putService_frame bytes h
  intro a ha
  simp only [List.mem_cons, List.not_mem_nil, or_false, not_or] at ha
  exact hcells a ha.1 ha.2

/-- PUTS and PUTSP are string services, each with its bytes of a word. -/
theorem exec_eq_putService {i : Instr} (hi : i = .trapPuts ∨ i = .trapPutsp) (s : State) :
    ∃ bytes, exec i s = s.putService bytes := by
  obtain rfl | rfl := hi
  · exact ⟨putsBytes, rfl⟩
  · exact ⟨putspBytes, rfl⟩

/-- Settles O44: the fuel is enough, and the frame is the string service's. -/
theorem putServicesComplete : Obligations.PutServicesComplete := by
  intro i s hi
  obtain ⟨bytes, hbytes⟩ := exec_eq_putService hi s
  obtain ⟨u, -, h⟩ := putService_completes bytes s
  obtain ⟨hout, hin, -, hflushed, ht⟩ := putService_frame bytes h
  have hregs := RegWriteAtMost.putService h
  exact ⟨_, hbytes.trans h, hregs.regsKept, hregs.2, ⟨by rw [ht], by rw [ht]⟩, memKeptBut_putService h, hout, hflushed,
    hin⟩

/-! ### A character taken into R0 (44_trap.md R156, R159) -/

theorem zext_eq_zero_iff {c : Byte} : zext c = 0 ↔ c = 0 := by
  rw [← BitVec.toNat_inj, ← BitVec.toNat_inj, toNat_zext]
  rfl

/-- The flag of a character: its code is never negative (decision D10). -/
theorem flag_zext (c : Byte) : flag (zext c) = if c = 0 then .z else .p := by
  have hsign : (zext c).getLsbD 15 = false := by simp [zext]
  simp only [flag, hsign, zext_eq_zero_iff, Bool.false_eq_true, if_false]

/-- The write of a character to R0: its code, the flag, and the frame of a register write. -/
theorem writeReg_character (s : State) (c : Byte) :
    ((s.writeReg .r0 (zext c)).readReg .r0).toNat = c.toNat ∧
    ((s.writeReg .r0 (zext c)).cond = .z ↔ c = 0) ∧ ((s.writeReg .r0 (zext c)).cond = .p ↔ c ≠ 0) ∧
    RegsKeptBut .r0 s (s.writeReg .r0 (zext c)) := by
  have hregs := (RegWriteAtMost.writeReg s .r0 (zext c)).regsKeptBut
  rw [readReg_writeReg_self, cond_writeReg, flag_zext]
  by_cases h : c = 0
  · rw [if_pos h]
    exact ⟨toNat_zext c, iff_of_true rfl h, iff_of_false nofun (not_not.2 h), hregs⟩
  · rw [if_neg h]
    exact ⟨toNat_zext c, iff_of_false nofun h, iff_of_true rfl h, hregs⟩

/-- Settles O40: the write of the character to R0, in the state with the character removed. -/
theorem getcTakesCharacter : Obligations.GetcTakesCharacter := by
  intro s c rest h
  obtain ⟨hcode, hz, hp, hregs⟩ := writeReg_character { s with inQ := rest } c
  exact ⟨_, exec_trapGetc_cons h, hcode, rfl, hz, hp, hregs, ⟨rfl, rfl⟩, fun _ => rfl, rfl, rfl, rfl⟩

/-- Settles O41: the write of the character to R0, in the state with the prompt written and the character removed. -/
theorem inPromptsAndTakes : Obligations.InPromptsAndTakes := by
  intro s c rest h
  obtain ⟨hcode, hz, hp, hregs⟩ := writeReg_character { s.outBytes s.texts.inPrompt with inQ := rest } c
  exact ⟨_, exec_trapIn_cons h, hcode, rfl, hz, hp, rfl, rfl, hregs, ⟨rfl, rfl⟩, fun _ => rfl⟩

/-! ### OUT and HALT (44_trap.md R157, R161) -/

/-- Settles O43: the low byte appended, then the flush. -/
theorem outWritesLowByte : Obligations.OutWritesLowByte := fun s =>
  ⟨_, rfl, by rw [← lowByte_eq]; rfl, rfl, fun _ => rfl, rfl, ⟨rfl, rfl⟩, fun _ => rfl, rfl⟩

/-- Settles O49: the text appended, the flush, and a stopped machine, which has no step. -/
theorem haltStopsTheMachine : Obligations.HaltStopsTheMachine := fun _ =>
  ⟨_, rfl, rfl, rfl, rfl, fun _ => rfl, rfl, rfl, fun _ => rfl, rfl, step_halted rfl⟩

/-! ### What a service leaves unchanged (44_trap.md R155, R163) -/

/-- GETC and IN change no cell: with an empty input they have no next state, and otherwise they touch R0 and the
environment alone. -/
theorem memKept_of_takesCharacter {i : Instr} {s t : State} (hi : i = .trapGetc ∨ i = .trapIn)
    (h : exec i s = .next t) : MemKept s t := by
  cases hq : s.inQ with
  | nil =>
    obtain rfl | rfl := hi
    · simp [exec_trapGetc_nil hq] at h
    · simp [exec_trapIn_nil hq] at h
  | cons c rest =>
    obtain rfl | rfl := hi
    · obtain rfl := Host.Outcome.next.inj ((exec_trapGetc_cons hq).symm.trans h)
      exact fun _ => rfl
    · obtain rfl := Host.Outcome.next.inj ((exec_trapIn_cons hq).symm.trans h)
      exact fun _ => rfl

/-- Settles O50: registers by the one register write of each service, memory by the string service's frame; the other
four change no cell. -/
theorem trapsKeepRegistersAndPc : Obligations.TrapsKeepRegistersAndPc := by
  intro i s t hi h
  have hregs := RegWriteAtMost.exec h
  cases i with
  | trapGetc | trapIn =>
    have hmem : MemKept s t := memKept_of_takesCharacter (by simp) h
    exact ⟨hregs.regsKeptBut, by simp, pc_exec h rfl, fun a _ => hmem a, fun _ _ => hmem⟩
  | trapOut | trapHalt =>
    have hmem : MemKept s t := Host.Outcome.next.inj h ▸ fun _ => rfl
    exact ⟨fun r _ => hregs.regsKept r, fun _ _ => hregs.regsKept, pc_exec h rfl, fun a _ => hmem a, fun _ _ => hmem⟩
  | trapPuts | trapPutsp =>
    exact ⟨fun r _ => hregs.regsKept r, fun _ _ => hregs.regsKept, pc_exec h rfl, memKeptBut_putService h, by simp⟩
  | _ => simp at hi

end Sys2Proof.Machine
end

section
/-! SUPPORT. Reset, boot, images and the end of a run (70_reset_and_hazards.md R210 to R224): the boot state, the placement
of an image and its byte format, what a move of a running machine can do to its run, and from it how a run ends. -/

namespace Sys2Proof.Machine

/-! ### Boot (70_reset_and_hazards.md R210, R211, R214; 10_state.md R36) -/

/-- R214: the image at the end of the list is placed last. -/
theorem Memory.loadImages_concat (m : Memory) (ims : List Image) (im : Image) :
    m.loadImages (ims ++ [im]) = (m.loadImages ims).loadImage im :=
  List.foldl_concat Memory.loadImage m im ims

/-- Settles O57: the boot sets each field from its parameter, and loads the images one after another. -/
theorem bootState : Obligations.BootState :=
  ⟨fun _ _ => ⟨rfl, rfl, fun _ => rfl, rfl, rfl, rfl, rfl⟩, fun _ => rfl, fun _ ims => Memory.wf_loadImages ims,
    fun p => Memory.loadImages_concat p.memInit, rfl⟩

/-! ### Placement (70_reset_and_hazards.md R213) -/

/-- Settles O58: a cell of the address space is either covered by the payload or left as it was. -/
theorem imagePlacement : Obligations.ImagePlacement := by
  intro m im a
  have hread := Memory.read_place im.payload m im.origin.toNat a.toNat a.isLt
  refine ⟨fun k hk ha => ?_, fun hout => ?_⟩
  · have hk' : a.toNat - im.origin.toNat = k := by omega
    rw [dif_pos (by omega)] at hread
    simp only [hk'] at hread
    exact hread
  · rwa [dif_neg (by omega)] at hread

/-! ### The byte format (70_reset_and_hazards.md R212) -/

/-- R212: a word's two bytes, bits 15:8 first. -/
def wordBytes (w : Word) : List Byte := [highByte w, lowByte w]

theorem Image.toBytes_eq (im : Image) : im.toBytes = (im.origin :: im.payload).flatMap wordBytes := rfl

theorem toNat_byteAppend (hi lo : Byte) : (hi ++ lo : Word).toNat = hi.toNat * 256 + lo.toNat :=
  toNat_append_add hi lo

/-- The bytes of a word are the only two that make it up. -/
theorem byteAppend_eq_iff {hi lo : Byte} {w : Word} : (hi ++ lo : Word) = w ↔ hi = highByte w ∧ lo = lowByte w := by
  have := hi.isLt; have := lo.isLt; have := w.isLt
  rw [highByte_eq, lowByte_eq, ← BitVec.toNat_inj, ← BitVec.toNat_inj, ← BitVec.toNat_inj, toNat_byteAppend,
    BitVec.toNat_ofNat, BitVec.toNat_ofNat]
  omega

theorem wordsOfBytes_cons_cons (hi lo : Byte) (rest : List Byte) :
    wordsOfBytes (hi :: lo :: rest) = (wordsOfBytes rest).map ((hi ++ lo : Word) :: ·) := by
  rw [wordsOfBytes]
  cases wordsOfBytes rest <;> rfl

/-- Bytes are read as the words whose bytes they are. -/
theorem wordsOfBytes_eq_some_iff : ∀ {bs : List Byte} {ws : List Word},
    wordsOfBytes bs = some ws ↔ bs = ws.flatMap wordBytes
  | [], ws => by cases ws <;> simp [wordsOfBytes, wordBytes]
  | [_], ws => by cases ws <;> simp [wordsOfBytes, wordBytes]
  | hi :: lo :: rest, [] => by simp [wordsOfBytes_cons_cons]
  | hi :: lo :: rest, w :: ws => by
    simp [wordsOfBytes_cons_cons, wordBytes, byteAppend_eq_iff, wordsOfBytes_eq_some_iff (bs := rest),
      and_comm, and_left_comm]

/-- Only an odd number of bytes is no list of words. -/
theorem wordsOfBytes_isSome_iff : ∀ {bs : List Byte}, (wordsOfBytes bs).isSome ↔ bs.length % 2 = 0
  | [] => by simp [wordsOfBytes]
  | [_] => by simp [wordsOfBytes]
  | hi :: lo :: rest => by
    simp [wordsOfBytes_cons_cons, wordsOfBytes_isSome_iff (bs := rest), Nat.add_assoc]

/-- An image is read from its own bytes and from no others. -/
theorem Image.ofBytes_eq_some_iff {bs : List Byte} {im : Image} : Image.ofBytes bs = some im ↔ bs = im.toBytes := by
  rw [Image.toBytes_eq, ← wordsOfBytes_eq_some_iff]
  obtain ⟨origin, payload⟩ := im
  unfold Image.ofBytes
  split <;> simp_all

theorem Image.length_toBytes (im : Image) : im.toBytes.length = 2 * (im.payload.length + 1) := by
  simp only [Image.toBytes_eq, List.length_flatMap, wordBytes, List.length_cons, List.length_nil, List.map_const',
    List.sum_replicate, smul_eq_mul]
  omega

/-- Settles O59: reading and writing the bytes are inverse, so an image's first two bytes are its origin's and their
number is even; any even number of bytes is read as words, the first of which, if there is one, is the origin. -/
theorem imageBytes : Obligations.ImageBytes := by
  refine ⟨fun im => Image.ofBytes_eq_some_iff.2 rfl, fun b0 b1 rest im h => ?_, fun bs => ⟨?_, ?_⟩⟩
  · obtain ⟨h0, h1, -⟩ : b0 = highByte im.origin ∧ b1 = lowByte im.origin ∧ rest = im.payload.flatMap wordBytes := by
      simpa [Image.toBytes_eq, wordBytes] using Image.ofBytes_eq_some_iff.1 h
    rw [← byteAppend_eq_iff.2 ⟨h0, h1⟩, toNat_byteAppend]
  · rintro ⟨im, h⟩
    rw [Image.ofBytes_eq_some_iff.1 h, Image.length_toBytes]
    omega
  · rintro ⟨heven, hlen⟩
    obtain ⟨ws, hws⟩ := Option.isSome_iff_exists.1 (wordsOfBytes_isSome_iff.2 heven)
    cases ws with
    | nil =>
      have hbs : bs = [] := wordsOfBytes_eq_some_iff.1 hws
      simp [hbs] at hlen
    | cons origin payload => exact ⟨⟨origin, payload⟩, Image.ofBytes_eq_some_iff.2 (wordsOfBytes_eq_some_iff.1 hws)⟩

/-! ### The end of a run (70_reset_and_hazards.md R222, R223) -/

/-- R185: the host ends the run of a running machine at once. -/
theorem run_terminate {s : State} (h : s.run = .running) (ms : List Move) : run (.terminate :: ms) s = .terminated := by
  simp [run, move, h]

/-- What one move does to the run of a running machine: it leads to a next state, it is a step that waits for input, or it
ends the run. No move is refused, for no step is (40_loop.md R113). -/
theorem run_cons_cases {s : State} (h : s.run = .running) (m : Move) :
    (∃ t, move m s = .next t ∧ ∀ ms, run (m :: ms) s = run ms t) ∨
    (∀ ms, run (m :: ms) s = run ms s) ∨
    (m = .terminate ∧ ∀ ms, run (m :: ms) s = .terminated) := by
  cases m with
  | step =>
    obtain ⟨t, ht⟩ | ⟨hwait, -⟩ := runningMachineStepsUnlessWaiting s h
    · have hmove : move .step s = .next t := by simp [move, ht]
      exact .inl ⟨t, hmove, run_cons_next h hmove⟩
    · exact .inr (.inl fun ms => by simp [run, move, h, hwait])
  | arrive cs => exact .inl ⟨_, rfl, run_cons_next h rfl⟩
  | terminate => exact .inr (.inr ⟨rfl, run_terminate h⟩)

theorem runEnd_running {s : State} (h : s.run = .running) : s.runEnd = .unfinished s := by simp [State.runEnd, h]

theorem runEnd_ne_terminated (s : State) : s.runEnd ≠ .terminated := by
  unfold State.runEnd
  split <;> simp

/-- A run that stands at e, with more moves to come: only an unfinished run goes on. -/
def RunEnd.andThen (more : List Move) : RunEnd → RunEnd
  | .unfinished u => run more u
  | e => e

theorem runEnd_andThen (more : List Move) (s : State) : s.runEnd.andThen more = run more s := by
  by_cases h : s.run = .running
  · rw [runEnd_running h, RunEnd.andThen]
  · rw [run_stopped h]
    unfold State.runEnd
    split <;> simp_all [RunEnd.andThen]

theorem RunEnd.andThen_of_ended {e : RunEnd} (h : ∀ u, e ≠ .unfinished u) (more : List Move) : e.andThen more = e := by
  cases e with
  | unfinished u => exact absurd rfl (h u)
  | _ => rfl

/-- The moves of a run in two parts. -/
theorem run_append (ms more : List Move) (s : State) : run (ms ++ more) s = (run ms s).andThen more := by
  induction ms generalizing s with
  | nil => exact (runEnd_andThen more s).symm
  | cons m ms ih =>
    rw [List.cons_append]
    by_cases h : s.run = .running
    · obtain ⟨t, -, hrun⟩ | hrun | ⟨-, hrun⟩ := run_cons_cases h m
      · rw [hrun, hrun, ih]
      · rw [hrun, hrun, ih]
      · rw [hrun, hrun]
        rfl
    · rw [run_stopped h, run_stopped h, runEnd_andThen, run_stopped h]

/-- How a run ends: by a termination request among its moves, or in what its last state shows. When a running machine's
run ends in a stopped state, a step from a running state of that run led there. -/
theorem run_cases (ms : List Move) (s : State) :
    (run ms s = .terminated ∧ .terminate ∈ ms) ∨
    ∃ t, run ms s = t.runEnd ∧ (s.run = .running → t.run ≠ .running →
      ∃ u, u.run = .running ∧ u.texts = s.texts ∧ step u = .next t) := by
  induction ms generalizing s with
  | nil => exact .inr ⟨s, rfl, fun h hs => absurd h hs⟩
  | cons m ms ih =>
    by_cases h : s.run = .running
    · obtain ⟨t, hmove, hrun⟩ | hrun | ⟨rfl, hrun⟩ := run_cons_cases h m
      · by_cases ht : t.run = .running
        · have htexts : t.texts = s.texts := outputGrowsInputShrinks.2 m s t hmove
          rw [hrun, ← htexts]
          exact (ih t).imp (fun ⟨hend, hmem⟩ => ⟨hend, List.mem_cons_of_mem _ hmem⟩)
            fun ⟨v, hend, hlast⟩ => ⟨v, hend, fun _ => hlast ht⟩
        · refine .inr ⟨t, (hrun ms).trans (run_stopped ht ms), fun _ _ => ?_⟩
          obtain ⟨-, hstep⟩ | ⟨cs, -, rfl⟩ := move_cases hmove
          · exact ⟨s, h, rfl, hstep⟩
          · exact absurd h ht
      · rw [hrun]
        exact (ih s).imp_left fun ⟨hend, hmem⟩ => ⟨hend, List.mem_cons_of_mem _ hmem⟩
      · exact .inl ⟨hrun ms, List.mem_cons_self⟩
    · exact .inr ⟨s, run_stopped h _, fun hs => absurd hs h⟩

/-- A step into HALTED is the step of a HALT (44_trap.md R161). -/
theorem halting_step {u t : State} (h : u.run = .running) (hstep : step u = .next t) (ht : t.run = .halted) :
    decode (u.memRead u.pc).1 = .trapHalt ∧ t.pc = u.pc + 1 ∧ t.outS = u.outS ++ u.texts.haltMsg := by
  have hdecode : decode (u.memRead u.pc).1 = .trapHalt := (leavingRunning u t h hstep).1.1 ht
  rw [step_running h, fetch_eq, hdecode] at hstep
  obtain rfl := Host.Outcome.next.inj hstep
  exact ⟨hdecode, rfl, by simp⟩

/-- R222 a: a run that halts stopped at a HALT, whose text ends the output. -/
theorem exists_halt_of_run_halted {ms : List Move} {s t : State} (h : s.run = .running) (hrun : run ms s = .halted t) :
    ∃ u, u.run = .running ∧ decode (u.memRead u.pc).1 = .trapHalt ∧ step u = .next t ∧ t.run = .halted ∧
      t.pc = u.pc + 1 ∧ ∃ bs, t.outS = bs ++ s.texts.haltMsg := by
  obtain ⟨hend, -⟩ | ⟨v, hend, hlast⟩ := run_cases ms s
  · simp [hend] at hrun
  · obtain ⟨ht, rfl⟩ := runEnd_halted_iff.1 (hend.symm.trans hrun)
    obtain ⟨u, hu, htexts, hstep⟩ := hlast h (by simp [ht])
    obtain ⟨hdecode, hpc, hout⟩ := halting_step hu hstep ht
    exact ⟨u, hu, hdecode, hstep, ht, hpc, u.outS, htexts ▸ hout⟩

/-- R222 b: a run that faults stopped at a step that faults. -/
theorem exists_fault_of_run_faulted {ms : List Move} {s t : State} {k : ExceptionKind} (h : s.run = .running)
    (hrun : run ms s = .faulted k t) : ∃ u, u.run = .running ∧ step u = .next t ∧ t.run = .faulted k := by
  obtain ⟨hend, -⟩ | ⟨v, hend, hlast⟩ := run_cases ms s
  · simp [hend] at hrun
  · obtain ⟨ht, rfl⟩ := runEnd_faulted_iff.1 (hend.symm.trans hrun)
    obtain ⟨u, hu, -, hstep⟩ := hlast h (by simp [ht])
    exact ⟨u, hu, hstep, ht⟩

/-- R222 c: only the host terminates a run. -/
theorem terminate_mem_of_run_terminated {ms : List Move} {s : State} (hrun : run ms s = .terminated) :
    Move.terminate ∈ ms := by
  obtain ⟨-, hmem⟩ | ⟨v, hend, -⟩ := run_cases ms s
  · exact hmem
  · exact absurd (hend.symm.trans hrun) (runEnd_ne_terminated v)

/-- A step that faults decides the run. -/
theorem run_append_step_of_faulted {ms : List Move} {s u t : State} {k : ExceptionKind} (hrun : run ms s = .unfinished u)
    (hstep : step u = .next t) (ht : t.run = .faulted k) (more : List Move) :
    run (ms ++ .step :: more) s = .faulted k t := by
  have hmove : move .step u = .next t := by simp [move, hstep]
  calc run (ms ++ .step :: more) s = run (.step :: more) u := by rw [run_append, hrun, RunEnd.andThen]
    _ = run more t := run_cons_next (running_of_step hstep) hmove more
    _ = t.runEnd := run_stopped (by simp [ht]) more
    _ = .faulted k t := runEnd_faulted_iff.2 ⟨ht, rfl⟩

/-- Settles O60: the three ends from how a run ends, their permanence from a run in two parts. -/
theorem runEndsInOneWay : Obligations.RunEndsInOneWay := by
  refine ⟨fun ms s t => exists_halt_of_run_halted, fun ms s t k => exists_fault_of_run_faulted,
    fun ms s => terminate_mem_of_run_terminated, fun ms s h => run_terminate h ms, fun ms more s hended => ?_,
    fun ms more s u t k hrun hstep ht hsafe => ?_, fun P ms s hhalts k final hrun => ?_⟩
  · rw [run_append, RunEnd.andThen_of_ended hended]
  · exact hsafe k t (run_append_step_of_faulted hrun hstep ht more)
  · obtain ⟨t, hhalted, -⟩ := hhalts
    simp [hhalted] at hrun

end Sys2Proof.Machine
end
